-- ==== Sys2Proof/Word.lean ====
section
/-! DEFINITION. The machine's bit-vector types (00_scope.md R6): bytes, 16-bit words, 3-bit register indices. -/

namespace Sys2Proof

/-- A `u8`: one byte of any of the three memories. -/
abbrev Byte := BitVec 8

/-- A `u16`: a register value, an address, an instruction word. -/
abbrev Word := BitVec 16

/-- A 3-bit register index, R0 .. R7 (10_state.md R10): every value names a register (30_encoding.md R55). -/
abbrev Reg := BitVec 3

end Sys2Proof
end

