-- ==== Sys2Proof/Config.lean ====
section
/-! DEFINITION. What the spec leaves to the implementation or fixes as a parameter (00_scope.md R4). -/

namespace Sys2Proof.Config

/-- The free part of the OPEN parameter `STACK_BASE` (00_scope.md R4, 92_eei_decisions.md D7): how far it lies above 16.
It has no body: nothing can evaluate it, so a claim that names `stackBase` holds for every value the spec admits. DESIGN CHOICE, safe: log entry 1. -/
opaque stackBaseAboveSixteen : Fin 65520

/-- `STACK_BASE`: any 16-bit value with `16 <= STACK_BASE <= 0xFFFF`. It names the upper end of the stack region
(92_eei_decisions.md D6): DESIGN CHOICE, unsafe: log entry 15. -/
def stackBase : Word := BitVec.ofNat 16 (16 + stackBaseAboveSixteen.val)

/-- `STACK_SIZE`: the stack memory's 16 bytes (10_state.md R23). -/
abbrev stackSize : Nat := 16

/-- `IMEM_SIZE` and `DMEM_SIZE`: 65536 bytes each (10_state.md R21, R22). -/
abbrev memorySize : Nat := 65536

/-- `DISP_SIGNED`: decided `false`, a branch displacement is zero-extended (00_scope.md R4, 92_eei_decisions.md D3).
DESIGN CHOICE, unsafe: log entry 2. -/
def dispSigned : Bool := false

end Sys2Proof.Config
end

