-- ==== Sys2Proof/Syntax.lean ====
section
/-! DEFINITION. The instructions: one constructor per row of spec/opcode_table.json, in the table's order. -/

namespace Sys2Proof

/-- One constructor per row of the opcode table (30_encoding.md R54, R58). A constructor carries the operands its rule names
(30_encoding.md R53, last paragraph) and no ignored bit (R56). -/
inductive Instr where
  /-- R120, `NOP`. -/
  | nop
  /-- R100, `PUSH Rn`. -/
  | push (rn : Reg)
  /-- R101, `POP Rd`. -/
  | pop (rd : Reg)
  /-- R110, `CMP Rn, Rm`; only R3 and R7 can be encoded as `rm` (R52). -/
  | cmp (rn rm : Reg)
  /-- R112, `JMP +imm8`, `imm8 mod 4 = 0`. -/
  | jmp (imm8 : BitVec 8)
  /-- R113, `JEQ +imm8`, `imm8 mod 4 = 1`. -/
  | jeq (imm8 : BitVec 8)
  /-- R114, `JLT +imm8`, `imm8 mod 4 = 2`. -/
  | jlt (imm8 : BitVec 8)
  /-- R115, `JGT +imm8`, `imm8 mod 4 = 3`. -/
  | jgt (imm8 : BitVec 8)
  /-- R70, `MOV Rd, Rm`. -/
  | movReg (rd rm : Reg)
  /-- R71, `MOV Rd, #imm8`. -/
  | movImm (rd : Reg) (imm8 : BitVec 8)
  /-- R72, `STR Rd, [Rn]`: `rd` holds the value, `rn` the address. -/
  | strReg (rd rn : Reg)
  /-- R73, `STRI #imm8`: the destination is named by `imm8[7:5]`. -/
  | strImm (imm8 : BitVec 8)
  /-- R74, `LDR Rd, [Rm]`. -/
  | ldr (rd rm : Reg)
  /-- R81, `ADD Rd, Rn, Rm`. -/
  | add (rd rn rm : Reg)
  /-- R82, `SUB Rd, Rn, Rm`. -/
  | sub (rd rn rm : Reg)
  /-- R83, `MUL Rd, Rn, Rm`. -/
  | mul (rd rn rm : Reg)
  /-- R90, `AND Rd, Rn, Rm`. -/
  | andR (rd rn rm : Reg)
  /-- R91, `ORR Rd, Rn, Rm`. -/
  | orr (rd rn rm : Reg)
  /-- R92, `NOT Rd, Rn`. -/
  | notR (rd rn : Reg)
  /-- R93, `XOR Rd, Rn, Rm`. -/
  | xorR (rd rn rm : Reg)
  /-- R94, `SHR Rd, Rn`. -/
  | shr (rd rn : Reg)
  /-- R95, `SHL Rd, Rn`. -/
  | shl (rd rn : Reg)
  /-- R96, `ROR Rd, Rn`. -/
  | ror (rd rn : Reg)
  /-- R97, `ROL Rd, Rn`. -/
  | rol (rd rn : Reg)
  /-- R121, `HALT`. -/
  | halt
  /-- R122, unrecognised: opcode 1111 with `I = 0`. -/
  | undImm0
  /-- R122, unrecognised: opcode 1111, `I = 1`, `mode_bits = 00`. -/
  | undMode0
  /-- R122, unrecognised: opcode 1111, `I = 1`, `mode_bits = 01`. -/
  | undMode1
  /-- R122, unrecognised: opcode 1111, `I = 1`, `mode_bits = 10`. -/
  | undMode2
deriving DecidableEq, Repr

end Sys2Proof
end

