-- ==== Sys2Proof/Machine/State.lean ====
section
/-! DEFINITION. The state of CSim16 CORE as plain data: everything 10_state.md gives the machine, and its reset values. -/

namespace Sys2Proof.Machine

/-- A byte-addressed store: the bytes that are not 0, by rising address (canonical form: `Memory.wf`). An address that is
not listed reads as 0 (`Memory.unlisted`). -/
abbrev Memory := List Host.Cell

/-- The four flags, four independent bits (R14); their packing in a status register has no value (R16). DESIGN CHOICE, safe: log
entry 18. -/
@[ext]
structure Flags where
  /-- Zero. -/
  z : Bool
  /-- Sign: bit 15 of the result. -/
  s : Bool
  /-- Carry, or borrow after SUB and CMP. -/
  c : Bool
  /-- Overflow. -/
  o : Bool
deriving DecidableEq, Repr

/-- Why the machine halted (R20, 92_eei_decisions.md D16). DESIGN CHOICE, unsafe: log entry 16. -/
inductive HaltCause where
  /-- The HALT instruction (R121). -/
  | clean
  /-- The fault of a PUSH at depth 16 (R131). -/
  | stackOverflow
  /-- The fault of a POP at depth 0 (R132). -/
  | stackUnderflow
deriving DecidableEq, Repr

/-- The run state (R20). -/
inductive RunState where
  | running
  | halted (cause : HaltCause)
deriving DecidableEq, Repr

/-- The stack pointer `sp`, a 16-bit address in `STACK_BASE - 16 .. STACK_BASE` (R17, R18), held as its distance below
`STACK_BASE`, the depth 0 .. 16: `STACK_BASE` has no value in the spec, and no rule depends on more than the depth
(92_eei_decisions.md D7). `StackPointer.addr` is the 16-bit address. DESIGN CHOICE, safe: log entry 1. -/
@[ext]
structure StackPointer where
  /-- `STACK_BASE - sp`, the number of bytes on the stack. -/
  depth : Fin 17
deriving DecidableEq, Repr

/-- The complete state of the machine (R24), with the launch image `imem` and the model's own count of Dump events. -/
@[ext]
structure State where
  /-- `x[0] .. x[7]` (R10). -/
  regs : Vector Word 8
  /-- The program counter, a byte address into instruction memory (R12). -/
  pc : Word
  /-- The stack pointer (R17). -/
  sp : StackPointer
  /-- The instruction register: the word most recently fetched (R19). -/
  ir : Word
  /-- `Z S C O` (R14). -/
  flags : Flags
  /-- The run state (R20). -/
  run : RunState
  /-- Instruction memory, the Loader's image, 65536 bytes (R21). -/
  imem : Memory
  /-- Data memory, 65536 bytes (R22). -/
  dmem : Memory
  /-- Stack memory, 16 bytes, indexed 0 .. 15 by `a - (STACK_BASE - 16)` (R23). -/
  stk : Memory
  /-- How many Dump events have been emitted (R143): the model's own record of the block's output, read by no instruction.
  DESIGN CHOICE, safe: log entry 8. -/
  dumps : Nat
deriving DecidableEq, Repr

/-- Reasons the machine stops with a fault: none. The spec's two faults, StackOverflow and StackUnderflow, have a described
effect (R133) and are next states whose `run` is `halted`; nothing else faults (R137). DESIGN CHOICE, safe: no step stops here; log
entry 17. -/
inductive Fault where
deriving DecidableEq, Repr

/-- Reasons an instruction has no meaning in the model. -/
inductive Refusal where
  /-- Raised by an arm of `exec` whose instruction is not modelled yet; no arm raises it. Safe. -/
  | notModelled (mnemonic : String)
deriving DecidableEq, Repr

/-- The machine right after reset (R25, R150): registers, flags and `pc` 0, `sp = STACK_BASE` (depth 0), running. `ir` and the
three memories are 0 by 92_eei_decisions.md D13, D14 (DESIGN CHOICE, unsafe: log entries 4, 5); instruction memory holds the empty image: a program
is loaded from outside (20_memory.md R45; DESIGN CHOICE, unsafe: log entry 6). -/
def State.reset : State :=
  { regs := Vector.replicate 8 0#16
    pc := 0#16
    sp := ⟨0⟩
    ir := 0#16
    flags := ⟨false, false, false, false⟩
    run := .running
    imem := []
    dmem := []
    stk := []
    dumps := 0 }

end Sys2Proof.Machine
end

