-- ==== Sys2Proof/Machine/Flags.lean ====
section
/-! DEFINITION. The flag functions of 41_arithmetic.md R80 and the three flag policies built from them. -/

namespace Sys2Proof.Machine

/-- `ZF(r)`: 1 exactly when the result is 0 (R80). -/
def zf (r : Word) : Bool := decide (r = 0#16)

/-- `SF(r)`: bit 15 of the result (R80). -/
def sf (r : Word) : Bool := r.msb

/-- `ADD_C(a, b)`: the unbounded sum exceeds 65535 (R80). -/
def addC (a b : Word) : Bool := decide (65535 < a.toNat + b.toNat)

/-- `SUB_C(a, b)`: a borrow, `a < b` unsigned (R80). -/
def subC (a b : Word) : Bool := decide (a.toNat < b.toNat)

/-- `ADD_O(a, b)`: the operands have one sign and the sum has the other (R80; signed means two's complement by
92_eei_decisions.md D19). PRESUMED, unsafe: log entry 10. -/
def addO (a b : Word) : Bool := a.msb == b.msb && (a + b).msb != a.msb

/-- `SUB_O(a, b)`: the operands differ in sign and the difference has not the sign of `a` (R80). PRESUMED, unsafe: log
entry 10. -/
def subO (a b : Word) : Bool := a.msb != b.msb && (a - b).msb != a.msb

/-- ADD's flags (R81). -/
def flagsOfAdd (a b : Word) : Flags := ⟨zf (a + b), sf (a + b), addC a b, addO a b⟩

/-- SUB's and CMP's flags (R82; 44_compare_branch.md R110). -/
def flagsOfSub (a b : Word) : Flags := ⟨zf (a - b), sf (a - b), subC a b, subO a b⟩

/-- `Z`, `S` from the result, `C = O = 0`: MUL (R83) and the logic and shift instructions (42_logic_shift_rotate.md R98). -/
def flagsOfResult (r : Word) : Flags := ⟨zf r, sf r, false, false⟩

end Sys2Proof.Machine
end

