-- ==== Sys2Proof/WellFormed.lean ====
section
/-! DEFINITION. Which instructions have an encoding: the overlaps of 30_encoding.md R52. -/

namespace Sys2Proof

/-- The condition selector a displacement carries: `mode_bits = imm8[1:0]` (R52). -/
def conditionBits (imm8 : BitVec 8) : BitVec 2 := imm8.extractLsb' 0 2

/-- An instruction is well formed when some word encodes it: CMP's second operand is R3 or R7, and a branch's displacement
has its condition in its low two bits (R52). Every other operand takes every value of its field (R55). -/
def Instr.wf : Instr → Bool
  | .cmp _ rm => rm == 3#3 || rm == 7#3
  | .jmp imm8 => conditionBits imm8 == 0#2
  | .jeq imm8 => conditionBits imm8 == 1#2
  | .jlt imm8 => conditionBits imm8 == 2#2
  | .jgt imm8 => conditionBits imm8 == 3#2
  | .nop | .push _ | .pop _ | .movReg _ _ | .movImm _ _ | .strReg _ _ | .strImm _ | .ldr _ _
  | .add _ _ _ | .sub _ _ _ | .mul _ _ _ | .andR _ _ _ | .orr _ _ _ | .notR _ _ | .xorR _ _ _
  | .shr _ _ | .shl _ _ | .ror _ _ | .rol _ _ | .halt
  | .undImm0 | .undMode0 | .undMode1 | .undMode2 => true

end Sys2Proof
end

