-- ==== Sys2Proof/Decode.lean ====
section
/-! DEFINITION. The decoder, total on all 65536 words and on any bytes, the encoder, and the opcode table (30_encoding.md). -/

namespace Sys2Proof

/-! ## Fields (R51) -/

/-- `opcode = w[15:12]`. -/
def opcodeOf (w : Word) : BitVec 4 := w.extractLsb' 12 4
/-- `immediate_mode = w[11:11]`, written `I`. -/
def immModeOf (w : Word) : BitVec 1 := w.extractLsb' 11 1
/-- `rd = w[10:8]`. -/
def rdOf (w : Word) : Reg := w.extractLsb' 8 3
/-- `rn = w[7:5]`. -/
def rnOf (w : Word) : Reg := w.extractLsb' 5 3
/-- `rm = w[2:0]`. -/
def rmOf (w : Word) : Reg := w.extractLsb' 0 3
/-- `mode_bits = w[1:0]`. -/
def modeOf (w : Word) : BitVec 2 := w.extractLsb' 0 2
/-- `imm8 = w[7:0]`. -/
def imm8Of (w : Word) : BitVec 8 := w.extractLsb' 0 8

/-! ## Selection (R54) -/

/-- The special group, `opcode = 0000`, `I = 0`: `mode_bits` chooses (R54, R57). -/
def decodeSpecial (w : Word) : Instr :=
  match (modeOf w).toNat with
  | 0 => .nop
  | 1 => .push (rnOf w)
  | 2 => .pop (rdOf w)
  | _ => .cmp (rnOf w) (rmOf w)

/-- The branch family, `opcode = 0000`, `I = 1`: `mode_bits` chooses the condition (R54, R57). -/
def decodeBranch (w : Word) : Instr :=
  match (modeOf w).toNat with
  | 0 => .jmp (imm8Of w)
  | 1 => .jeq (imm8Of w)
  | 2 => .jlt (imm8Of w)
  | _ => .jgt (imm8Of w)

/-- `opcode = 1111`: HALT when `I = 1` and `mode_bits = 11`, else one of the four unrecognised classes (R54, R58). -/
def decodeHalt (w : Word) : Instr :=
  if immModeOf w = 0#1 then .undImm0
  else
    match (modeOf w).toNat with
    | 0 => .undMode0
    | 1 => .undMode1
    | 2 => .undMode2
    | _ => .halt

/-- Every word selects exactly one instruction, by `opcode` first, then where the table says so by `I` and `mode_bits`
(R54). A row that names no condition on a bit matches both its values (R56, 92_eei_decisions.md D11). DESIGN CHOICE, unsafe: log
entry 3. -/
def decodeWord (w : Word) : Instr :=
  match (opcodeOf w).toNat with
  | 0 => if immModeOf w = 0#1 then decodeSpecial w else decodeBranch w
  | 1 => if immModeOf w = 0#1 then .movReg (rdOf w) (rmOf w) else .movImm (rdOf w) (imm8Of w)
  | 2 => if immModeOf w = 0#1 then .strReg (rdOf w) (rnOf w) else .strImm (imm8Of w)
  | 3 => .ldr (rdOf w) (rmOf w)
  | 4 => .add (rdOf w) (rnOf w) (rmOf w)
  | 5 => .sub (rdOf w) (rnOf w) (rmOf w)
  | 6 => .mul (rdOf w) (rnOf w) (rmOf w)
  | 7 => .andR (rdOf w) (rnOf w) (rmOf w)
  | 8 => .orr (rdOf w) (rnOf w) (rmOf w)
  | 9 => .notR (rdOf w) (rnOf w)
  | 10 => .xorR (rdOf w) (rnOf w) (rmOf w)
  | 11 => .shr (rdOf w) (rnOf w)
  | 12 => .shl (rdOf w) (rnOf w)
  | 13 => .ror (rdOf w) (rnOf w)
  | 14 => .rol (rdOf w) (rnOf w)
  | _ => decodeHalt w

/-! ## Bytes (R31, R50) -/

/-- The byte at the lower address: bits [7:0] (20_memory.md R31). -/
def lowByte (w : Word) : Byte := w.extractLsb' 0 8
/-- The byte at the higher address: bits [15:8]. -/
def highByte (w : Word) : Byte := w.extractLsb' 8 8
/-- `hi :: lo` (00_scope.md R6). -/
def joinBytes (hi lo : Byte) : Word := hi ++ lo

/-- A word as instruction memory holds it: low byte first. -/
def wordBytes (w : Word) : List Byte := [lowByte w, highByte w]

/-- Why bytes are no instruction: no word is illegal (R59), so only a missing byte is. -/
inductive DecodeError where
  /-- Fewer than the two bytes every instruction has (R50). -/
  | truncated
deriving DecidableEq, Repr

/-- What decoding a list of bytes gives. -/
inductive DecodeResult where
  /-- An instruction, and the bytes after it. -/
  | ok (i : Instr) (rest : List Byte)
  /-- No instruction, by name. -/
  | rejected (why : DecodeError)
deriving DecidableEq, Repr

/-- The instruction at the head of a list of bytes, low byte first, with the bytes after it (R50). -/
def decode : List Byte → DecodeResult
  | lo :: hi :: rest => .ok (decodeWord (joinBytes hi lo)) rest
  | [_] => .rejected .truncated
  | [] => .rejected .truncated

/-! ## Encoding (R53); ignored bits are 0, as in the canonical spellings of R60 (DESIGN CHOICE, safe: log entry 22) -/

/-- Format R with `I = 0`. -/
def formatR (opcode : BitVec 4) (rd rn rm : Reg) : Word := opcode ++ 0#1 ++ rd ++ rn ++ 0#2 ++ rm
/-- Format I: `I = 1`. -/
def formatI (opcode : BitVec 4) (rd : Reg) (imm8 : BitVec 8) : Word := opcode ++ 1#1 ++ rd ++ imm8
/-- Format S: `opcode = 0000`, `I = 0`; `rm2` is `w[2:2]`. -/
def formatS (rd rn : Reg) (rm2 : BitVec 1) (mode : BitVec 2) : Word := 0#4 ++ 0#1 ++ rd ++ rn ++ 0#2 ++ rm2 ++ mode
/-- Format B: `opcode = 0000`, `I = 1`; the displacement's low bits are `mode_bits`. -/
def formatB (imm8 : BitVec 8) : Word := 0#4 ++ 1#1 ++ 0#3 ++ imm8
/-- Format H: `opcode = 1111`. -/
def formatH (imm : BitVec 1) (mode : BitVec 2) : Word := 15#4 ++ imm ++ 0#9 ++ mode

/-- The canonical word of a well-formed instruction (R53, R54, R60). -/
def encode : Instr → Word
  | .nop => formatS 0 0 0 0
  | .push rn => formatS 0 rn 0 1
  | .pop rd => formatS rd 0 0 2
  | .cmp rn rm => formatS 0 rn (rm.extractLsb' 2 1) 3
  | .jmp imm8 | .jeq imm8 | .jlt imm8 | .jgt imm8 => formatB imm8
  | .movReg rd rm => formatR 1 rd 0 rm
  | .movImm rd imm8 => formatI 1 rd imm8
  | .strReg rd rn => formatR 2 rd rn 0
  | .strImm imm8 => formatI 2 0 imm8
  | .ldr rd rm => formatR 3 rd 0 rm
  | .add rd rn rm => formatR 4 rd rn rm
  | .sub rd rn rm => formatR 5 rd rn rm
  | .mul rd rn rm => formatR 6 rd rn rm
  | .andR rd rn rm => formatR 7 rd rn rm
  | .orr rd rn rm => formatR 8 rd rn rm
  | .notR rd rn => formatR 9 rd rn 0
  | .xorR rd rn rm => formatR 10 rd rn rm
  | .shr rd rn => formatR 11 rd rn 0
  | .shl rd rn => formatR 12 rd rn 0
  | .ror rd rn => formatR 13 rd rn 0
  | .rol rd rn => formatR 14 rd rn 0
  | .halt => formatH 1 3
  | .undImm0 => formatH 0 0
  | .undMode0 => formatH 1 0
  | .undMode1 => formatH 1 1
  | .undMode2 => formatH 1 2

/-- The two bytes of an instruction, as instruction memory holds them. -/
def encodeBytes (i : Instr) : List Byte := wordBytes (encode i)

/-! ## The opcode table -/

/-- One row of spec/opcode_table.json: `w &&& mask = value` selects it; `used` has a 1 at every bit the row fixes or reads
(every bit the table's pattern does not mark `x`). -/
structure OpcodeRow where
  mnemonic : String
  mask : Word
  value : Word
  used : Word
deriving DecidableEq, Repr

/-- The 29 rows of the opcode table, in its order (R54, R58). -/
def opcodeRows : List OpcodeRow :=
  [ ⟨"NOP", 0xF803#16, 0x0000#16, 0xF803#16⟩,
    ⟨"PUSH", 0xF803#16, 0x0001#16, 0xF8E3#16⟩,
    ⟨"POP", 0xF803#16, 0x0002#16, 0xFF03#16⟩,
    ⟨"CMP", 0xF803#16, 0x0003#16, 0xF8E7#16⟩,
    ⟨"JMP", 0xF803#16, 0x0800#16, 0xF8FF#16⟩,
    ⟨"JEQ", 0xF803#16, 0x0801#16, 0xF8FF#16⟩,
    ⟨"JLT", 0xF803#16, 0x0802#16, 0xF8FF#16⟩,
    ⟨"JGT", 0xF803#16, 0x0803#16, 0xF8FF#16⟩,
    ⟨"MOV", 0xF800#16, 0x1000#16, 0xFF07#16⟩,
    ⟨"MOV", 0xF800#16, 0x1800#16, 0xFFFF#16⟩,
    ⟨"STR", 0xF800#16, 0x2000#16, 0xFFE0#16⟩,
    ⟨"STRI", 0xF800#16, 0x2800#16, 0xF8FF#16⟩,
    ⟨"LDR", 0xF000#16, 0x3000#16, 0xF707#16⟩,
    ⟨"ADD", 0xF000#16, 0x4000#16, 0xF7E7#16⟩,
    ⟨"SUB", 0xF000#16, 0x5000#16, 0xF7E7#16⟩ ] ++
  [ ⟨"MUL", 0xF000#16, 0x6000#16, 0xF7E7#16⟩,
    ⟨"AND", 0xF000#16, 0x7000#16, 0xF7E7#16⟩,
    ⟨"ORR", 0xF000#16, 0x8000#16, 0xF7E7#16⟩,
    ⟨"NOT", 0xF000#16, 0x9000#16, 0xF7E0#16⟩,
    ⟨"XOR", 0xF000#16, 0xA000#16, 0xF7E7#16⟩,
    ⟨"SHR", 0xF000#16, 0xB000#16, 0xF7E0#16⟩,
    ⟨"SHL", 0xF000#16, 0xC000#16, 0xF7E0#16⟩,
    ⟨"ROR", 0xF000#16, 0xD000#16, 0xF7E0#16⟩,
    ⟨"ROL", 0xF000#16, 0xE000#16, 0xF7E0#16⟩,
    ⟨"HALT", 0xF803#16, 0xF803#16, 0xF803#16⟩,
    ⟨"UND", 0xF800#16, 0xF000#16, 0xF800#16⟩,
    ⟨"UND", 0xF803#16, 0xF800#16, 0xF803#16⟩,
    ⟨"UND", 0xF803#16, 0xF801#16, 0xF803#16⟩,
    ⟨"UND", 0xF803#16, 0xF802#16, 0xF803#16⟩ ]

/-- The index in `opcodeRows` of an instruction's row. -/
def Instr.row : Instr → Nat
  | .nop => 0
  | .push _ => 1
  | .pop _ => 2
  | .cmp _ _ => 3
  | .jmp _ => 4
  | .jeq _ => 5
  | .jlt _ => 6
  | .jgt _ => 7
  | .movReg _ _ => 8
  | .movImm _ _ => 9
  | .strReg _ _ => 10
  | .strImm _ => 11
  | .ldr _ _ => 12
  | .add _ _ _ => 13
  | .sub _ _ _ => 14
  | .mul _ _ _ => 15
  | .andR _ _ _ => 16
  | .orr _ _ _ => 17
  | .notR _ _ => 18
  | .xorR _ _ _ => 19
  | .shr _ _ => 20
  | .shl _ _ => 21
  | .ror _ _ => 22
  | .rol _ _ => 23
  | .halt => 24
  | .undImm0 => 25
  | .undMode0 => 26
  | .undMode1 => 27
  | .undMode2 => 28

/-- The instruction the decoder reads from an instruction whose bits are `w`, numbered as the opcode table numbers them:
one 16-bit word, its bits above `nbits` 0, laid out low byte first. -/
def decodeTableWord (nbits w : Nat) : Option Instr :=
  if nbits ≤ 16 then
    match decode (wordBytes (BitVec.ofNat 16 (w % 2 ^ nbits))) with
    | .ok i _ => some i
    | .rejected _ => none
  else none

end Sys2Proof
end

