-- ==== Sys2Proof/Machine/Ops.lean ====
section
/-! DEFINITION. The shared operations: the memories, the registers, the stack, the fetch, the branch, the dump request, taking
a fault, halting, and reset. Every instruction's meaning is written over these. -/

namespace Sys2Proof.Machine

/-! ## Memories -/

/-- What an address that is not listed reads as: 0, the reset value of every byte of all three memories (10_state.md R25,
92_eei_decisions.md D14). DESIGN CHOICE, unsafe: log entry 5. -/
def Memory.unlisted : Byte := 0#8

/-- The byte at an address. -/
def Memory.read : Memory → Nat → Byte
  | [], _ => Memory.unlisted
  | (k, v) :: m, a => if k = a then v else Memory.read m a

/-- Put a cell in its place by rising address, replacing the one that is there. -/
def Memory.insertCell : Memory → Nat → Byte → Memory
  | [], a, v => [(a, v)]
  | (k, x) :: m, a, v =>
    if k < a then (k, x) :: Memory.insertCell m a v
    else if k = a then (a, v) :: m
    else (a, v) :: (k, x) :: m

/-- Set the byte at an address; writing what an unlisted address reads as removes the cell. -/
def Memory.write (m : Memory) (a : Nat) (v : Byte) : Memory :=
  if v = Memory.unlisted then m.filter (fun c => c.1 != a) else Memory.insertCell m a v

/-- The canonical form of a store of `size` bytes: addresses below `size` and strictly rising, no cell that holds what an
unlisted address reads as. -/
def Memory.wf (size : Nat) : Memory → Bool
  | [] => true
  | (k, v) :: m => decide (k < size) && v != Memory.unlisted && m.all (fun c => decide (k < c.1)) && Memory.wf size m

/-- `IFetchByte(a)`: instruction memory's byte at `a` (20_memory.md R32). -/
def State.fetchByte (s : State) (a : Word) : Byte := s.imem.read a.toNat

/-- `MemRead(a, 1)`: data memory's byte at `a` (20_memory.md R34; one byte by 92_eei_decisions.md D5: DESIGN CHOICE,
unsafe, log entry 7). -/
def State.memRead (s : State) (a : Word) : Byte := s.dmem.read a.toNat

/-- `MemWrite(a, 1, v)` (20_memory.md R34). Every 16-bit address is valid (R35). -/
def State.memWrite (s : State) (a : Word) (v : Byte) : State := { s with dmem := s.dmem.write a.toNat v }

/-! ## Registers and flags -/

/-- `x[r]` (10_state.md R10). -/
def State.reg (s : State) (r : Reg) : Word := s.regs[r.toNat]'r.isLt

/-- `x[r] <- v`: no register is hardwired (10_state.md R10). -/
def State.setReg (s : State) (r : Reg) (v : Word) : State := { s with regs := s.regs.set r.toNat v r.isLt }

/-- `flags <- (Z, S, C, O)`: all four at once, never in part (10_state.md R15). -/
def State.setFlags (s : State) (f : Flags) : State := { s with flags := f }

/-- The write-back of a flag-defining operation: the result to its register, all four flags (10_state.md R15). -/
def State.writeResult (s : State) (rd : Reg) (r : Word) (f : Flags) : State := (s.setReg rd r).setFlags f

/-! ## Program counter and fetch (10_state.md R12, R27 step 1) -/

/-- `IFetch16(pc)`: the byte at `pc` is the low byte, the one at `(pc + 1) mod 2^16` the high byte (20_memory.md R31, R32); any
`pc` is a legal fetch address, odd ones too (R33; 92_eei_decisions.md D4: DESIGN CHOICE, unsafe, log entry 9). -/
def State.fetchWord (s : State) : Word := joinBytes (s.fetchByte (s.pc + 1#16)) (s.fetchByte s.pc)

/-- What the fetch leaves, before the instruction executes: `ir` takes the word and `pc` is advanced by 2 modulo 2^16. -/
def State.afterFetch (s : State) : State := { s with ir := s.fetchWord, pc := s.pc + 2#16 }

/-- A taken branch: the displacement is added to the already advanced `pc` (10_state.md R12, 44_compare_branch.md R111). -/
def State.branchBy (s : State) (displacement : Word) : State := { s with pc := s.pc + displacement }

/-! ## Stack (10_state.md R17, R23; 20_memory.md R36, R37) -/

/-- `sp` as the 16-bit address it is: `STACK_BASE - depth` (10_state.md R17, R18). -/
def StackPointer.addr (p : StackPointer) : Word := Config.stackBase - BitVec.ofNat 16 p.depth.val

/-- The index in stack memory of the byte `sp` points at: `sp - (STACK_BASE - 16)` (10_state.md R23). At depth 0, the empty
stack, it is 16, the index of no byte. -/
def StackPointer.index (p : StackPointer) : Nat := Config.stackSize - p.depth.val

/-- `sp - 1`: one byte deeper. PUSH checks the bounds first (20_memory.md R37), so it is never taken at depth 16. -/
def StackPointer.down (p : StackPointer) : StackPointer := ⟨⟨min (p.depth.val + 1) 16, by omega⟩⟩

/-- `sp + 1`: one byte shallower. POP checks the bounds first (20_memory.md R37), so it is never taken at depth 0. -/
def StackPointer.up (p : StackPointer) : StackPointer := ⟨⟨p.depth.val - 1, by have := p.depth.isLt; omega⟩⟩

/-- PUSH is admitted when `sp - 2 >= STACK_BASE - 16` (20_memory.md R37, 92_eei_decisions.md D9). DESIGN CHOICE, unsafe: log
entry 14. -/
def StackPointer.canPush (p : StackPointer) : Bool := decide (p.depth.val + 2 ≤ Config.stackSize)

/-- POP is admitted when `sp + 2 <= STACK_BASE` (20_memory.md R37, 92_eei_decisions.md D9). DESIGN CHOICE, unsafe: log entry 14. -/
def StackPointer.canPop (p : StackPointer) : Bool := decide (2 ≤ p.depth.val)

/-- `sp <- sp - 1 ; StkWrite(sp, v)`: push decrements, then stores (10_state.md R17). -/
def State.pushByte (s : State) (v : Byte) : State :=
  { s with sp := s.sp.down, stk := s.stk.write s.sp.down.index v }

/-- `StkRead(sp)` at the top of the stack. -/
def State.topByte (s : State) : Byte := s.stk.read s.sp.index

/-- `sp <- sp + 1`: pop loads, then increments; the byte read keeps its value (43_stack.md R101). -/
def State.dropByte (s : State) : State := { s with sp := s.sp.up }

/-- An address of the stack region, `STACK_BASE - 16 .. STACK_BASE - 1` (10_state.md R17). -/
def inStackRegion (a : Word) : Bool :=
  decide (Config.stackBase.toNat ≤ a.toNat + Config.stackSize) && decide (a.toNat < Config.stackBase.toNat)

/-- `StkRead(a)` by stack address, defined in the stack region only (20_memory.md R37). -/
def State.stkRead (s : State) (a : Word) : Option Byte :=
  if inStackRegion a then some (s.stk.read (a.toNat + Config.stackSize - Config.stackBase.toNat)) else none

/-! ## Dump, faults, halting (60_exceptions.md) -/

/-- `emit Dump`: one output event, no state of the machine changed (60_exceptions.md R143); the count is the model's record of it.
DESIGN CHOICE, safe: log entry 8. -/
def State.emitDump (s : State) : State := { s with dumps := s.dumps + 1 }

/-- Enter `HALTED(cause)` and emit the final dump: what HALT and a fault share (45_system.md R121, 60_exceptions.md R133). -/
def State.haltWith (s : State) (cause : HaltCause) : State := { s with run := .halted cause }.emitDump

/-- TAKING A FAULT (60_exceptions.md R133, R134): `run` becomes the matching `HALTED`, a Dump is emitted, and nothing else
changes: no register saves anything, there is no vector and no handler, and `pc` and `ir` keep what the fetch wrote. There is
no return from it (R135): only reset leaves `HALTED` (`State.boot`). `sp` unchanged is 92_eei_decisions.md D10: DESIGN CHOICE,
unsafe, log entry 14. -/
def raiseFault (cause : HaltCause) (s : State) : Host.Outcome State Fault Refusal := .next (s.haltWith cause)

/-! ## Loading and reset (20_memory.md R45, 70_reset_and_hazards.md R150) -/

/-- A 16-bit value into a store, low byte at `a`, high byte at `(a + 1) mod 2^16` (20_memory.md R31, R45). -/
def Memory.storeWord (m : Memory) (a v : Word) : Memory :=
  (m.write a.toNat (lowByte v)).write (a + 1#16).toNat (highByte v)

/-- The image that program-file lines `(address, value)` build, a later line overwriting an earlier one, every other byte 0
(20_memory.md R45). -/
def loadImage (lines : List (Word × Word)) : Memory := lines.foldl (fun m l => m.storeWord l.1 l.2) []

/-- Reset with the Loader's image in place: every piece of state at its reset value whatever it was (70_reset_and_hazards.md
R150, R151); the only exit from `HALTED` (60_exceptions.md R135). DESIGN CHOICE, unsafe: log entry 20. -/
def State.boot (image : Memory) : State := { State.reset with imem := image }

end Sys2Proof.Machine
end

