-- ==== Sys2Proof/Machine/Arithmetic.lean ====
section
/-! DEFINITION. ADD, SUB, MUL (41_arithmetic.md). Sources are read before the destination is written (10_state.md R11). -/

namespace Sys2Proof.Machine

/-- R81: the sum modulo 2^16 and all four flags. -/
def execAdd (rd rn rm : Reg) (s : State) : Host.Outcome State Fault Refusal :=
  .next (s.writeResult rd (s.reg rn + s.reg rm) (flagsOfAdd (s.reg rn) (s.reg rm)))

/-- R82: the difference modulo 2^16 and all four flags, `C` the borrow. -/
def execSub (rd rn rm : Reg) (s : State) : Host.Outcome State Fault Refusal :=
  .next (s.writeResult rd (s.reg rn - s.reg rm) (flagsOfSub (s.reg rn) (s.reg rm)))

/-- R83: the low 16 bits of the product, `C = O = 0`. -/
def execMul (rd rn rm : Reg) (s : State) : Host.Outcome State Fault Refusal :=
  .next (s.writeResult rd (s.reg rn * s.reg rm) (flagsOfResult (s.reg rn * s.reg rm)))

end Sys2Proof.Machine
end

