-- ==== Sys2Proof/Machine/Operands.lean ====
section
/-! DEFINITION. Operand forms: the immediate's three uses, the addresses of STR and LDR, and the one-place shifts and rotates. -/

namespace Sys2Proof.Machine

/-- `zext_16(imm8)` (00_scope.md R6, 30_encoding.md R55). -/
def zext16 (v : BitVec 8) : Word := v.zeroExtend 16

/-- `sext_16(imm8)` (00_scope.md R6): the reading 92_eei_decisions.md D3 decided against. -/
def sext16 (v : BitVec 8) : Word := v.signExtend 16

/-- A branch displacement under each value of the parameter `DISP_SIGNED` (00_scope.md R4, 92_eei_decisions.md D3). -/
def displacementWith (signed : Bool) (imm8 : BitVec 8) : Word := if signed then sext16 imm8 else zext16 imm8

/-- The machine's branch displacement: zero-extended, 0 .. 255 (30_encoding.md R55, 44_compare_branch.md R111). DESIGN
CHOICE, unsafe: log entry 2. -/
def displacement (imm8 : BitVec 8) : Word := displacementWith Config.dispSigned imm8

/-- The destination of STR's immediate form: `imm8[7:5]` (30_encoding.md R52, 40_move_load_store.md R73). -/
def strImmDest (imm8 : BitVec 8) : Reg := imm8.extractLsb' 5 3

/-- The address STR's register form stores to: `x[rn]` (40_move_load_store.md R72). -/
def strAddress (rn : Reg) (s : State) : Word := s.reg rn

/-- The byte STR's register form stores: `x[rd][7:0]` (40_move_load_store.md R72). -/
def strByte (rd : Reg) (s : State) : Byte := lowByte (s.reg rd)

/-- The address LDR reads: `x[rm]` (40_move_load_store.md R74). -/
def ldrAddress (rm : Reg) (s : State) : Word := s.reg rm

/-- `0 :: v[15:1]` (42_logic_shift_rotate.md R94). -/
def shiftRightOne (v : Word) : Word := 0#1 ++ v.extractLsb' 1 15

/-- `v[14:0] :: 0` (42_logic_shift_rotate.md R95). -/
def shiftLeftOne (v : Word) : Word := v.extractLsb' 0 15 ++ 0#1

/-- `v[0:0] :: v[15:1]` (42_logic_shift_rotate.md R96, the spec's own bit formula, 93_implementation_defined.md G2). PRESUMED, unsafe: log
entry 11. -/
def rotateRightOne (v : Word) : Word := v.extractLsb' 0 1 ++ v.extractLsb' 1 15

/-- `v[14:0] :: v[15:15]` (42_logic_shift_rotate.md R97, the spec's own bit formula, 93_implementation_defined.md G2). PRESUMED, unsafe: log
entry 11. -/
def rotateLeftOne (v : Word) : Word := v.extractLsb' 0 15 ++ v.extractLsb' 15 1

end Sys2Proof.Machine
end

