-- ==== Sys2Proof/Machine/CompareBranch.lean ====
section
/-! DEFINITION. CMP and the branch family (44_compare_branch.md). A branch reads `Z` and `S` only and writes nothing but `pc`. -/

namespace Sys2Proof.Machine

/-- R110: SUB's flags, no register written. -/
def execCmp (rn rm : Reg) (s : State) : Host.Outcome State Fault Refusal :=
  .next (s.setFlags (flagsOfSub (s.reg rn) (s.reg rm)))

/-- R111: if the condition holds, the displacement is added to the already advanced `pc`. -/
def branchIf (cond : Bool) (imm8 : BitVec 8) (s : State) : Host.Outcome State Fault Refusal :=
  if cond then .next (s.branchBy (displacement imm8)) else .next s

/-- JEQ's condition, `Z = 1` (R113). -/
def condEqual (f : Flags) : Bool := f.z

/-- JLT's condition, `S = 1` and `Z = 0` (R114). -/
def condLess (f : Flags) : Bool := f.s && !f.z

/-- JGT's condition, `Z = 0` and `S = 0` (R115). -/
def condGreater (f : Flags) : Bool := !f.z && !f.s

/-- R112. -/
def execJmp (imm8 : BitVec 8) (s : State) : Host.Outcome State Fault Refusal := branchIf true imm8 s

/-- R113. -/
def execJeq (imm8 : BitVec 8) (s : State) : Host.Outcome State Fault Refusal := branchIf (condEqual s.flags) imm8 s

/-- R114. -/
def execJlt (imm8 : BitVec 8) (s : State) : Host.Outcome State Fault Refusal := branchIf (condLess s.flags) imm8 s

/-- R115. -/
def execJgt (imm8 : BitVec 8) (s : State) : Host.Outcome State Fault Refusal := branchIf (condGreater s.flags) imm8 s

end Sys2Proof.Machine
end

