-- ==== Sys2Proof/Machine/DataMovement.lean ====
section
/-! DEFINITION. MOV, STR, LDR (40_move_load_store.md). None writes a flag, none faults. -/

namespace Sys2Proof.Machine

/-- R70: `x[rd] <- x[rm]`. -/
def execMovReg (rd rm : Reg) (s : State) : Host.Outcome State Fault Refusal :=
  .next (s.setReg rd (s.reg rm))

/-- R71: `x[rd] <- zext_16(imm8)`. -/
def execMovImm (rd : Reg) (imm8 : BitVec 8) (s : State) : Host.Outcome State Fault Refusal :=
  .next (s.setReg rd (zext16 imm8))

/-- R72: `MemWrite(x[rn], 1, x[rd][7:0])`. -/
def execStrReg (rd rn : Reg) (s : State) : Host.Outcome State Fault Refusal :=
  .next (s.memWrite (strAddress rn s) (strByte rd s))

/-- R73: `x[imm8[7:5]] <- zext_16(imm8)`; no memory is touched. -/
def execStrImm (imm8 : BitVec 8) (s : State) : Host.Outcome State Fault Refusal :=
  .next (s.setReg (strImmDest imm8) (zext16 imm8))

/-- R74: `x[rd] <- zext_16(MemRead(x[rm], 1))`. -/
def execLdr (rd rm : Reg) (s : State) : Host.Outcome State Fault Refusal :=
  .next (s.setReg rd (zext16 (s.memRead (ldrAddress rm s))))

end Sys2Proof.Machine
end

