-- ==== Sys2Proof/Machine/LogicShift.lean ====
section
/-! DEFINITION. AND, ORR, NOT, XOR, SHR, SHL, ROR, ROL (42_logic_shift_rotate.md). The first six follow the flag policy of R98;
the rotates leave the flags alone. -/

namespace Sys2Proof.Machine

/-- The write-back of R98: `Z`, `S` from the result, `C = O = 0`. -/
def writeLogic (rd : Reg) (r : Word) (s : State) : Host.Outcome State Fault Refusal :=
  .next (s.writeResult rd r (flagsOfResult r))

/-- R90. -/
def execAnd (rd rn rm : Reg) (s : State) : Host.Outcome State Fault Refusal :=
  writeLogic rd (s.reg rn &&& s.reg rm) s

/-- R91. -/
def execOrr (rd rn rm : Reg) (s : State) : Host.Outcome State Fault Refusal :=
  writeLogic rd (s.reg rn ||| s.reg rm) s

/-- R92. -/
def execNot (rd rn : Reg) (s : State) : Host.Outcome State Fault Refusal :=
  writeLogic rd (~~~ s.reg rn) s

/-- R93. -/
def execXor (rd rn rm : Reg) (s : State) : Host.Outcome State Fault Refusal :=
  writeLogic rd (s.reg rn ^^^ s.reg rm) s

/-- R94: logical, by one place; the bit shifted out is lost. -/
def execShr (rd rn : Reg) (s : State) : Host.Outcome State Fault Refusal :=
  writeLogic rd (shiftRightOne (s.reg rn)) s

/-- R95: by one place; the bit shifted out is lost. -/
def execShl (rd rn : Reg) (s : State) : Host.Outcome State Fault Refusal :=
  writeLogic rd (shiftLeftOne (s.reg rn)) s

/-- R96: through the 16 register bits only; flags kept. -/
def execRor (rd rn : Reg) (s : State) : Host.Outcome State Fault Refusal :=
  .next (s.setReg rd (rotateRightOne (s.reg rn)))

/-- R97: through the 16 register bits only; flags kept. -/
def execRol (rd rn : Reg) (s : State) : Host.Outcome State Fault Refusal :=
  .next (s.setReg rd (rotateLeftOne (s.reg rn)))

end Sys2Proof.Machine
end

