-- ==== Sys2Proof/Machine/Stack.lean ====
section
/-! DEFINITION. PUSH and POP (43_stack.md), the only instructions that touch `sp` and stack memory and the only ones that fault. -/

namespace Sys2Proof.Machine

/-- R100: StackOverflow when `sp - 2 < STACK_BASE - 16`, and then nothing else happens (60_exceptions.md R133); otherwise the low
byte is pushed, then the high byte. -/
def execPush (rn : Reg) (s : State) : Host.Outcome State Fault Refusal :=
  if s.sp.canPush then .next ((s.pushByte (lowByte (s.reg rn))).pushByte (highByte (s.reg rn)))
  else raiseFault .stackOverflow s

/-- R101: StackUnderflow when `sp + 2 > STACK_BASE`, and then nothing else happens (60_exceptions.md R133); otherwise the first
byte popped is the high byte, the second the low byte (20_memory.md R36). DEDUCED, unsafe: log entry 21. -/
def execPop (rd : Reg) (s : State) : Host.Outcome State Fault Refusal :=
  if s.sp.canPop then .next (s.dropByte.dropByte.setReg rd (joinBytes s.topByte s.dropByte.topByte))
  else raiseFault .stackUnderflow s

end Sys2Proof.Machine
end

