-- ==== Sys2Proof/Machine/System.lean ====
section
/-! DEFINITION. NOP, HALT and the unrecognised words (45_system.md). -/

namespace Sys2Proof.Machine

/-- R120: a debug breakpoint: one Dump event, nothing else. -/
def execNop (s : State) : Host.Outcome State Fault Refusal := .next s.emitDump

/-- R121: `run <- HALTED(Clean)`, one Dump event. -/
def execHalt (s : State) : Host.Outcome State Fault Refusal := .next (s.haltWith .clean)

/-- R122: an unrecognised word does nothing and, unlike NOP, emits no dump. DEDUCED, unsafe: log entry 23. -/
def execUnrecognised (s : State) : Host.Outcome State Fault Refusal := .next s

/-- R122, opcode 1111 with `I = 0`. -/
def execUndImm0 (s : State) : Host.Outcome State Fault Refusal := execUnrecognised s

/-- R122, opcode 1111, `I = 1`, `mode_bits = 00`. -/
def execUndMode0 (s : State) : Host.Outcome State Fault Refusal := execUnrecognised s

/-- R122, opcode 1111, `I = 1`, `mode_bits = 01`. -/
def execUndMode1 (s : State) : Host.Outcome State Fault Refusal := execUnrecognised s

/-- R122, opcode 1111, `I = 1`, `mode_bits = 10`. -/
def execUndMode2 (s : State) : Host.Outcome State Fault Refusal := execUnrecognised s

end Sys2Proof.Machine
end

