-- ==== Sys2Proof/Machine/Dispatch.lean ====
section
/-! DEFINITION. One arm per instruction (10_state.md R27 steps 3 and 4), in the opcode table's order. -/

namespace Sys2Proof.Machine

def exec (i : Instr) (s : State) : Host.Outcome State Fault Refusal :=
  match i with
  | .nop => Sys2Proof.Machine.execNop s
  | .push rn => Sys2Proof.Machine.execPush rn s
  | .pop rd => Sys2Proof.Machine.execPop rd s
  | .cmp rn rm => Sys2Proof.Machine.execCmp rn rm s
  | .jmp imm8 => Sys2Proof.Machine.execJmp imm8 s
  | .jeq imm8 => Sys2Proof.Machine.execJeq imm8 s
  | .jlt imm8 => Sys2Proof.Machine.execJlt imm8 s
  | .jgt imm8 => Sys2Proof.Machine.execJgt imm8 s
  | .movReg rd rm => Sys2Proof.Machine.execMovReg rd rm s
  | .movImm rd imm8 => Sys2Proof.Machine.execMovImm rd imm8 s
  | .strReg rd rn => Sys2Proof.Machine.execStrReg rd rn s
  | .strImm imm8 => Sys2Proof.Machine.execStrImm imm8 s
  | .ldr rd rm => Sys2Proof.Machine.execLdr rd rm s
  | .add rd rn rm => Sys2Proof.Machine.execAdd rd rn rm s
  | .sub rd rn rm => Sys2Proof.Machine.execSub rd rn rm s
  | .mul rd rn rm => Sys2Proof.Machine.execMul rd rn rm s
  | .andR rd rn rm => Sys2Proof.Machine.execAnd rd rn rm s
  | .orr rd rn rm => Sys2Proof.Machine.execOrr rd rn rm s
  | .notR rd rn => Sys2Proof.Machine.execNot rd rn s
  | .xorR rd rn rm => Sys2Proof.Machine.execXor rd rn rm s
  | .shr rd rn => Sys2Proof.Machine.execShr rd rn s
  | .shl rd rn => Sys2Proof.Machine.execShl rd rn s
  | .ror rd rn => Sys2Proof.Machine.execRor rd rn s
  | .rol rd rn => Sys2Proof.Machine.execRol rd rn s
  | .halt => Sys2Proof.Machine.execHalt s
  | .undImm0 => Sys2Proof.Machine.execUndImm0 s
  | .undMode0 => Sys2Proof.Machine.execUndMode0 s
  | .undMode1 => Sys2Proof.Machine.execUndMode1 s
  | .undMode2 => Sys2Proof.Machine.execUndMode2 s

end Sys2Proof.Machine
end

