-- ==== Sys2Proof/Machine/Step.lean ====
section
/-! DEFINITION. One step: one whole iteration of fetch, advance, decode, execute (10_state.md R27; atomic by
92_eei_decisions.md D1: DESIGN CHOICE, safe, log entry 19), and how the host places a word. -/

namespace Sys2Proof.Machine

/-- Enabled only when running (R27); a halted machine takes no step: nothing is fetched and no state changes, for ever (R28).
DESIGN CHOICE, safe: log entry 12. -/
def step (s : State) : Host.Outcome State Fault Refusal :=
  match s.run with
  | .running => exec (decodeWord s.fetchWord) s.afterFetch
  | .halted _ => .next s

/-- The word stored in instruction memory where `step` fetches next, at `pc`, as the Loader would (20_memory.md R45), and the
machine running, which the fetch needs. DESIGN CHOICE, unsafe: log entry 6. -/
def State.withFetchWord (s : State) (nbits w : Nat) : State :=
  { s with run := .running, imem := s.imem.storeWord s.pc (BitVec.ofNat 16 (w % 2 ^ nbits)) }

end Sys2Proof.Machine
end

