-- ==== Sys2Proof/Machine/Status.lean ====
section
/-! DEFINITION. What the block shows the outside: the status outputs (60_exceptions.md R145) and a dump's content (R143). -/

namespace Sys2Proof.Machine

/-- The `halted` output (R145); a run is over exactly when it is set (70_reset_and_hazards.md R156). -/
def State.haltedOutput (s : State) : Bool :=
  match s.run with
  | .running => false
  | .halted _ => true

/-- The `exit_status` output, not valid while running: 0 after a clean halt, 1 after either fault (R145). DESIGN CHOICE, unsafe:
log entry 16. -/
def State.exitStatus (s : State) : Option Nat :=
  match s.run with
  | .running => none
  | .halted .clean => some 0
  | .halted .stackOverflow => some 1
  | .halted .stackUnderflow => some 1

/-- What a dump shows (R143): registers, PC, SP, IR, the four flags, and the bytes that are not 0 of data memory (by address)
and of the stack region (by index above `STACK_BASE - 16`). -/
structure DumpContent where
  regs : Vector Word 8
  pc : Word
  sp : Word
  ir : Word
  flags : Flags
  dmemNonZero : List Host.Cell
  stackNonZero : List Host.Cell
deriving DecidableEq, Repr

/-- What the State Reporter reads when a Dump is emitted: the state as it stands after the instruction (R143). In canonical
form a memory lists exactly the bytes that are not 0. -/
def State.dumpContent (s : State) : DumpContent :=
  ⟨s.regs, s.pc, s.sp.addr, s.ir, s.flags, s.dmem, s.stk⟩

end Sys2Proof.Machine
end

