-- ==== Sys2Proof/Safety.lean ====
section
/-! DEFINITION. The terms claims use: the invariant, frames, who writes what, runs of instructions, the signed reading. -/

namespace Sys2Proof.Machine

/-! ## The invariant -/

/-- What every step keeps: the three memories are in canonical form within their sizes (10_state.md R21 to R23), the depth is even
(R18), `Z` and `S` are not both 1 (44_compare_branch.md R114: a result with bit 15 set is not zero), and a fault halt stands at
the depth that caused it (60_exceptions.md R131, R132). -/
structure State.Inv (s : State) : Prop where
  imemWf : s.imem.wf Config.memorySize = true
  dmemWf : s.dmem.wf Config.memorySize = true
  stkWf : s.stk.wf Config.stackSize = true
  depthEven : s.sp.depth.val % 2 = 0
  flagsConsistent : (s.flags.z && s.flags.s) = false
  overflowFull : s.run = .halted .stackOverflow → s.sp.depth.val = 16
  underflowEmpty : s.run = .halted .stackUnderflow → s.sp.depth.val = 0

/-! ## Frames -/

/-- Every general register but `d` keeps its value. -/
def KeepsRegsBut (d : Reg) (s t : State) : Prop := ∀ r : Reg, r ≠ d → t.reg r = s.reg r

/-- Every general register keeps its value. -/
def KeepsRegs (s t : State) : Prop := ∀ r : Reg, t.reg r = s.reg r

/-- Every byte of instruction memory reads as before. -/
def KeepsImem (s t : State) : Prop := ∀ a : Word, t.fetchByte a = s.fetchByte a

/-- Every byte of data memory reads as before. -/
def KeepsDmem (s t : State) : Prop := ∀ a : Word, t.memRead a = s.memRead a

/-- Every stack address reads as before. -/
def KeepsStack (s t : State) : Prop := ∀ a : Word, t.stkRead a = s.stkRead a

/-- Every byte of all three memories reads as before. -/
def KeepsMemories (s t : State) : Prop := KeepsImem s t ∧ KeepsDmem s t ∧ KeepsStack s t

/-- `pc` and `ir` stay as the fetch left them. -/
def KeepsFetch (s t : State) : Prop := t.pc = s.pc ∧ t.ir = s.ir

/-- Still in the same run state, with no Dump emitted. -/
def KeepsRun (s t : State) : Prop := t.run = s.run ∧ t.dumps = s.dumps

/-- The frame of an instruction that writes one register and no flag. -/
def OnlyWritesReg (d : Reg) (s t : State) : Prop :=
  KeepsRegsBut d s t ∧ t.flags = s.flags ∧ t.sp = s.sp ∧ KeepsFetch s t ∧ KeepsRun s t ∧ KeepsMemories s t

/-- The frame of an instruction that writes one register and all four flags. -/
def OnlyWritesRegAndFlags (d : Reg) (s t : State) : Prop :=
  KeepsRegsBut d s t ∧ t.sp = s.sp ∧ KeepsFetch s t ∧ KeepsRun s t ∧ KeepsMemories s t

/-- Everything but the run state and the count of Dump events is as before. -/
def KeepsAllButRun (s t : State) : Prop :=
  KeepsRegs s t ∧ t.flags = s.flags ∧ t.sp = s.sp ∧ KeepsFetch s t ∧ KeepsMemories s t

/-- Everything but `pc` is as before. -/
def KeepsAllButPc (s t : State) : Prop :=
  KeepsRegs s t ∧ t.flags = s.flags ∧ t.sp = s.sp ∧ t.ir = s.ir ∧ KeepsRun s t ∧ KeepsMemories s t

/-- `Z` and `S` from a result, `C = O = 0` (42_logic_shift_rotate.md R98). -/
def LogicFlags (r : Word) (f : Flags) : Prop :=
  (f.z = true ↔ r.toNat = 0) ∧ (f.s = true ↔ 32768 ≤ r.toNat) ∧ f.c = false ∧ f.o = false

end Sys2Proof.Machine

namespace Sys2Proof
open Sys2Proof.Machine

/-! ## Who writes what (10_state.md R26) -/

/-- The general register an instruction writes, if any (R26, rows `x[rd]`, `x[rn]`). -/
def Instr.destReg : Instr → Option Reg
  | .movReg rd _ | .movImm rd _ | .ldr rd _ | .pop rd => some rd
  | .add rd _ _ | .sub rd _ _ | .mul rd _ _ | .andR rd _ _ | .orr rd _ _ | .xorR rd _ _ => some rd
  | .notR rd _ | .shr rd _ | .shl rd _ | .ror rd _ | .rol rd _ => some rd
  | .strImm imm8 => some (imm8.extractLsb' 5 3)
  | .nop | .push _ | .cmp _ _ | .jmp _ | .jeq _ | .jlt _ | .jgt _ | .strReg _ _ | .halt
  | .undImm0 | .undMode0 | .undMode1 | .undMode2 => none

/-- The general registers an instruction reads (R26, column "read by"; 30_encoding.md R53, last paragraph). -/
def Instr.sources : Instr → List Reg
  | .movReg _ rm | .ldr _ rm => [rm]
  | .strReg rd rn => [rd, rn]
  | .add _ rn rm | .sub _ rn rm | .mul _ rn rm | .andR _ rn rm | .orr _ rn rm | .xorR _ rn rm | .cmp rn rm => [rn, rm]
  | .notR _ rn | .shr _ rn | .shl _ rn | .ror _ rn | .rol _ rn | .push rn => [rn]
  | .nop | .pop _ | .jmp _ | .jeq _ | .jlt _ | .jgt _ | .movImm _ _ | .strImm _ | .halt
  | .undImm0 | .undMode0 | .undMode1 | .undMode2 => []

/-- The flag-defining class (10_state.md R15). -/
def Instr.definesFlags : Instr → Bool
  | .add _ _ _ | .sub _ _ _ | .mul _ _ _ | .andR _ _ _ | .orr _ _ _ | .notR _ _ | .xorR _ _ _
  | .shr _ _ | .shl _ _ | .cmp _ _ => true
  | .movReg _ _ | .movImm _ _ | .strReg _ _ | .strImm _ | .ldr _ _ | .ror _ _ | .rol _ _
  | .push _ | .pop _ | .nop | .jmp _ | .jeq _ | .jlt _ | .jgt _ | .halt
  | .undImm0 | .undMode0 | .undMode1 | .undMode2 => false

/-- Whether a branch's condition holds of the flags; not a branch: never (44_compare_branch.md R112 to R115). -/
def Instr.branchTaken (i : Instr) (f : Flags) : Bool :=
  match i with
  | .jmp _ => true
  | .jeq _ => f.z
  | .jlt _ => f.s && !f.z
  | .jgt _ => !f.z && !f.s
  | .nop | .push _ | .pop _ | .cmp _ _ | .movReg _ _ | .movImm _ _ | .strReg _ _ | .strImm _ | .ldr _ _
  | .add _ _ _ | .sub _ _ _ | .mul _ _ _ | .andR _ _ _ | .orr _ _ _ | .notR _ _ | .xorR _ _ _
  | .shr _ _ | .shl _ _ | .ror _ _ | .rol _ _ | .halt | .undImm0 | .undMode0 | .undMode1 | .undMode2 => false

/-- JEQ and JGT, the branches whose displacement is odd (30_encoding.md R52). -/
def Instr.isOddBranch : Instr → Bool
  | .jeq _ | .jgt _ => true
  | .nop | .push _ | .pop _ | .cmp _ _ | .jmp _ | .jlt _ | .movReg _ _ | .movImm _ _ | .strReg _ _ | .strImm _ | .ldr _ _
  | .add _ _ _ | .sub _ _ _ | .mul _ _ _ | .andR _ _ _ | .orr _ _ _ | .notR _ _ | .xorR _ _ _
  | .shr _ _ | .shl _ _ | .ror _ _ | .rol _ _ | .halt | .undImm0 | .undMode0 | .undMode1 | .undMode2 => false

/-- Whether an instruction emits a Dump: NOP, HALT, a PUSH or POP that faults (60_exceptions.md R143). -/
def Instr.emitsDump (i : Instr) (depth : Nat) : Bool :=
  match i with
  | .nop | .halt => true
  | .push _ => decide (14 < depth)
  | .pop _ => decide (depth < 2)
  | .cmp _ _ | .jmp _ | .jeq _ | .jlt _ | .jgt _ | .movReg _ _ | .movImm _ _ | .strReg _ _ | .strImm _ | .ldr _ _
  | .add _ _ _ | .sub _ _ _ | .mul _ _ _ | .andR _ _ _ | .orr _ _ _ | .notR _ _ | .xorR _ _ _
  | .shr _ _ | .shl _ _ | .ror _ _ | .rol _ _ | .undImm0 | .undMode0 | .undMode1 | .undMode2 => false

/-- Neither PUSH nor POP. -/
def Instr.leavesStack : Instr → Bool
  | .push _ | .pop _ => false
  | .nop | .cmp _ _ | .jmp _ | .jeq _ | .jlt _ | .jgt _ | .movReg _ _ | .movImm _ _ | .strReg _ _ | .strImm _ | .ldr _ _
  | .add _ _ _ | .sub _ _ _ | .mul _ _ _ | .andR _ _ _ | .orr _ _ _ | .notR _ _ | .xorR _ _ _
  | .shr _ _ | .shl _ _ | .ror _ _ | .rol _ _ | .halt | .undImm0 | .undMode0 | .undMode1 | .undMode2 => true

end Sys2Proof

namespace Sys2Proof.Machine

/-! ## Runs of instructions -/

/-- Instructions executed one after another, each at the state the one before left; how the stack's rules are stated, which do
not depend on where the instructions are fetched from. -/
def execSeq : List Instr → State → Host.Outcome State Fault Refusal
  | [], s => .next s
  | i :: is, s =>
    match exec i s with
    | .next t => execSeq is t
    | .fault r => .fault r
    | .refused r => .refused r

/-- Instructions that contain balanced PUSH/POP pairs (43_stack.md R102). -/
inductive Balanced : List Instr → Prop where
  | nil : Balanced []
  | other (i : Instr) (is : List Instr) : i.leavesStack = true → Balanced is → Balanced (i :: is)
  | pair (rn rd : Reg) (inner rest : List Instr) : Balanced inner → Balanced rest →
      Balanced (.push rn :: inner ++ .pop rd :: rest)

/-- No instruction of the list faults when the list is executed from `s`. -/
def NoStackFault : List Instr → State → Prop
  | [], _ => True
  | i :: is, s => ∀ t, exec i s = .next t →
      t.run ≠ .halted .stackOverflow ∧ t.run ≠ .halted .stackUnderflow ∧ NoStackFault is t

end Sys2Proof.Machine
end

