-- ==== Sys2Proof/Certificates/Slice0/Obligations.lean ====
section
/-! DEFINITION. The statements for the provers, from the numbered rules of spec/. A clause that rests on a choice of the spec's own
(a [decision], [derived] or general-knowledge mark) or of the model's is named in the docstring. -/

open Sys2Proof Sys2Proof.Machine

/-! ## Encoding (30_encoding.md) -/

/-- R51: the seven fields, always all seven, at fixed bit positions, of every word. -/
def Obligations.FieldsStandAtTheirBitPositions : Prop :=
  ∀ w : Word, (opcodeOf w).toNat = w.toNat / 4096 ∧ (immModeOf w).toNat = w.toNat / 2048 % 2 ∧
    (rdOf w).toNat = w.toNat / 256 % 8 ∧ (rnOf w).toNat = w.toNat / 32 % 8 ∧ (rmOf w).toNat = w.toNat % 8 ∧
    (modeOf w).toNat = w.toNat % 4 ∧ (imm8Of w).toNat = w.toNat % 256

/-- R54: a word satisfies the mask and value of a row of the opcode table exactly when the decoder selects that row, so the rows
are disjoint and cover every word. -/
def Obligations.DecodeSelectsByMaskAndMatch : Prop :=
  ∀ (w : Word) (k : Nat) (row : OpcodeRow), opcodeRows[k]? = some row →
    (w &&& row.mask = row.value ↔ (decodeWord w).row = k)

/-- R52, a [derived] rule: every word decodes to a well-formed instruction: CMP's second source is R3 or R7, a branch's
displacement carries its condition. -/
def Obligations.EveryWordDecodesWellFormed : Prop :=
  ∀ w : Word, (decodeWord w).wf = true

/-- R56 ([decision] D11, log entry 3): two words that agree on the bits the first one's row uses decode alike. -/
def Obligations.IgnoredBitsHaveNoEffect : Prop :=
  ∀ (w v : Word) (row : OpcodeRow), opcodeRows[(decodeWord w).row]? = some row →
    v &&& row.used = w &&& row.used → decodeWord v = decodeWord w

/-- Encoding what a word decodes to gives the word back but for its ignored bits, which are 0. That the encoder writes 0 there
is a choice, the canonical spelling of R60 ([decision] D18; log entry 22); the formats are R53's, a [derived] rule. -/
def Obligations.EncodingADecodedWordClearsItsIgnoredBits : Prop :=
  ∀ (w : Word) (row : OpcodeRow), opcodeRows[(decodeWord w).row]? = some row →
    encode (decodeWord w) = w &&& row.used

/-- Decode and encode agree: the bytes of every well-formed instruction, with any bytes after them, decode to it and leave the
rest. -/
def Obligations.DecodeOfEncodeIsTheInstruction : Prop :=
  ∀ (i : Instr) (rest : List Byte), i.wf = true → decode (encodeBytes i ++ rest) = .ok i rest

/-- R62, a [derived] table: words written out from the encoding decode to the instructions they stand for. -/
def Obligations.WorkedWordsDecode : Prop :=
  decodeWord 0x1203 = .movReg 2 3 ∧ decodeWord 0x1905 = .movImm 1 5 ∧ decodeWord 0x2220 = .strReg 2 1 ∧
  decodeWord 0x2825 = .strImm 0x25 ∧ decodeWord 0x3301 = .ldr 3 1 ∧ decodeWord 0x4022 = .add 0 1 2 ∧
  decodeWord 0x94A0 = .notR 4 5 ∧ decodeWord 0xE6C0 = .rol 6 6 ∧ decodeWord 0x0041 = .push 2 ∧
  decodeWord 0x0402 = .pop 4 ∧ decodeWord 0x0027 = .cmp 1 7 ∧ decodeWord 0x0000 = .nop ∧
  decodeWord 0x0805 = .jeq 5 ∧ decodeWord 0x0807 = .jgt 7 ∧ decodeWord 0xF803 = .halt ∧ decodeWord 0xF000 = .undImm0

/-! ## The step (10_state.md R27, R28) -/

/-- R27: when the bytes at `pc` decode to `i`, a running machine's step is `i` executed at the state in which `ir` holds the word
and `pc` is advanced by 2. -/
def Obligations.StepRunsTheDecodedInstruction : Prop :=
  ∀ (s : State) (i : Instr), s.run = .running →
    decode [s.fetchByte s.pc, s.fetchByte (s.pc + 1#16)] = .ok i [] →
    step s = exec i { s with ir := joinBytes (s.fetchByte (s.pc + 1#16)) (s.fetchByte s.pc), pc := s.pc + 2#16 }

/-- Every step of every state answers a next state. R59 and R137 say that no word and nothing but the stack faults is a fault;
that the model takes the stack faults as next states and not as stops (log entry 17), and that its step of a halted machine,
which by R28 takes none, answers a next state (log entry 12), are the model's own choices. -/
def Obligations.EveryStepAnswersANextState : Prop :=
  ∀ s : State, ∃ t, step s = .next t

/-- R31, R32 (the wrap at 0xFFFF is [decision] D4, log entry 9): a running step leaves in `ir` the byte at `pc` as low byte and
the byte at `(pc + 1) mod 2^16` as high byte. -/
def Obligations.FetchIsLittleEndianAndWraps : Prop :=
  ∀ s : State, s.run = .running → ∃ t, step s = .next t ∧
    t.ir.toNat = (s.imem.read ((s.pc.toNat + 1) % 65536)).toNat * 256 + (s.imem.read s.pc.toNat).toNat

/-- R12, R27, R116 (the zero-extension is [decision] D3, log entry 2): after a running step `pc` is the fetch address plus 2, plus
`imm8` exactly when the word is a branch whose condition holds, modulo 2^16. -/
def Obligations.PcAdvancesByTwoAndTakenBranchesOnlyAddImm8 : Prop :=
  ∀ s : State, s.run = .running → ∃ t, step s = .next t ∧
    t.pc.toNat =
      (s.pc.toNat + 2 + if (decodeWord s.fetchWord).branchTaken s.flags then (imm8Of s.fetchWord).toNat else 0) % 65536

/-- R13, a [derived] rule: a step flips the parity of `pc` exactly when it takes a JEQ or a JGT. -/
def Obligations.OnlyTakenJeqAndJgtFlipPcParity : Prop :=
  ∀ s t : State, s.run = .running → step s = .next t →
    (t.pc.toNat % 2 ≠ s.pc.toNat % 2 ↔
      (decodeWord s.fetchWord).isOddBranch = true ∧ (decodeWord s.fetchWord).branchTaken s.flags = true)

/-- R28 (log entry 12: the model's step of a halted machine answers the same state): any number of steps leaves a halted machine
as it is. -/
def Obligations.HaltedMachineNeverChanges : Prop :=
  ∀ (s : State) (n : Nat), s.run ≠ .running → core.run n s = .next s

/-- R20 (the split of HALTED by cause is [decision] D16; log entry 16): the transitions of the run state, exhaustively. -/
def Obligations.RunStateTransitions : Prop :=
  ∀ s t : State, step s = .next t →
    (s.run ≠ .running → t.run = s.run) ∧
    (s.run = .running →
      (t.run = .halted .clean ↔ decodeWord s.fetchWord = .halt) ∧
      (t.run = .halted .stackOverflow ↔ (∃ rn, decodeWord s.fetchWord = .push rn) ∧ 14 < s.sp.depth.val) ∧
      (t.run = .halted .stackUnderflow ↔ (∃ rd, decodeWord s.fetchWord = .pop rd) ∧ s.sp.depth.val < 2))

/-- R43: however long the machine runs, from any state, instruction memory reads as it did, and the word fetched depends only on
`pc` and that image. -/
def Obligations.FetchNeverSeesAStore : Prop :=
  ∀ (n : Nat) (s t : State), core.run n s = .next t →
    KeepsImem s t ∧ ∀ u : State, u.pc = t.pc → KeepsImem s u → u.fetchWord = t.fetchWord

/-- R133, R134 (the unchanged `sp` is [decision] D10; log entry 14): a step that faults has no effect but the fetch, the run
state and one Dump. -/
def Obligations.FaultsArePrecise : Prop :=
  ∀ s t : State, s.run = .running → step s = .next t →
    (t.run = .halted .stackOverflow ∨ t.run = .halted .stackUnderflow) →
    t.pc = s.pc + 2#16 ∧ t.ir = s.fetchWord ∧ KeepsRegs s t ∧ t.flags = s.flags ∧ t.sp = s.sp ∧ KeepsMemories s t ∧
      t.dumps = s.dumps + 1

/-- R143 ([decision] D17, log entry 8): a running step emits one Dump when it executes NOP, HALT, or a PUSH or POP that faults,
and none otherwise. -/
def Obligations.DumpsAreEmittedByNopHaltAndFaultsOnly : Prop :=
  ∀ s t : State, s.run = .running → step s = .next t →
    t.dumps = s.dumps + if (decodeWord s.fetchWord).emitsDump s.sp.depth.val then 1 else 0

/-- R145 ([decision] D2, D16; log entry 16): when a running machine's step halts it, the exit status is 0 exactly after HALT,
and 1 exactly after a stack fault; while it runs, there is none. -/
def Obligations.ExitStatusTellsCleanHaltFromFault : Prop :=
  ∀ s t : State, s.run = .running → step s = .next t →
    (t.exitStatus = some 0 ↔ decodeWord s.fetchWord = .halt) ∧
    (t.exitStatus = some 1 ↔ (∃ rn, decodeWord s.fetchWord = .push rn) ∧ 14 < s.sp.depth.val ∨
      (∃ rd, decodeWord s.fetchWord = .pop rd) ∧ s.sp.depth.val < 2) ∧
    (t.exitStatus = none ↔ t.haltedOutput = false)

/-! ## Reset and the invariant -/

/-- R25 (`ir` is [decision] D13, the memories D14; log entries 4, 5): every piece of state after reset, the image loaded being
`image`. -/
def Obligations.ResetValues : Prop :=
  ∀ image : Memory,
    (∀ r, (State.boot image).reg r = 0#16) ∧ (State.boot image).pc = 0#16 ∧ (State.boot image).sp.addr = Config.stackBase ∧
    (State.boot image).flags = ⟨false, false, false, false⟩ ∧ (State.boot image).run = .running ∧
    (State.boot image).ir = 0#16 ∧ (∀ a, (State.boot image).memRead a = 0#8) ∧
    (∀ a, inStackRegion a = true → (State.boot image).stkRead a = some 0#8) ∧
    (∀ a, (State.boot image).fetchByte a = image.read a.toNat) ∧ State.boot [] = core.reset

/-- The model's invariant holds at reset. -/
def Obligations.ResetMeetsTheInvariant : Prop :=
  core.reset.Inv ∧ ∀ lines : List (Word × Word), (State.boot (loadImage lines)).Inv

/-- The model's invariant (canonical memories, even depth, `Z` and `S` never both 1, a fault halt at the depth that caused it) is
kept by every step, from every state that meets it. -/
def Obligations.StepKeepsTheInvariant : Prop :=
  ∀ s t : State, s.Inv → step s = .next t → t.Inv

/-- R18, a [derived] rule: at every step boundary of every run of every program image, `sp` stays in
`STACK_BASE - 16 .. STACK_BASE` and the depth is even. -/
def Obligations.StackPointerStaysInBoundsOnEveryRun : Prop :=
  ∀ (lines : List (Word × Word)) (n : Nat) (t : State), core.run n (State.boot (loadImage lines)) = .next t →
    Config.stackBase.toNat ≤ t.sp.addr.toNat + 16 ∧ t.sp.addr.toNat ≤ Config.stackBase.toNat ∧
    (Config.stackBase.toNat - t.sp.addr.toNat) % 2 = 0

/-! ## Who reads and writes what (10_state.md R14, R15, R26) -/

/-- R15: the two flag classes. A flag-defining instruction's flags do not depend on the flags before it (all four are recomputed);
every other instruction leaves all four unchanged, a faulting PUSH or POP too. -/
def Obligations.FlagsAreRecomputedWholesaleOrKept : Prop :=
  ∀ (i : Instr) (s : State), ∃ t, exec i s = .next t ∧
    (i.definesFlags = false → t.flags = s.flags) ∧
    (i.definesFlags = true → ∀ f : Flags, ∃ u, exec i (s.setFlags f) = .next u ∧ u.flags = t.flags)

/-- R26, column "written by": what each instruction may write. -/
def Obligations.WritersOfEachPieceOfState : Prop :=
  ∀ (i : Instr) (s : State), ∃ t, exec i s = .next t ∧
    (∀ r, i.destReg ≠ some r → t.reg r = s.reg r) ∧
    (i.definesFlags = false → t.flags = s.flags) ∧
    (i.branchTaken s.flags = false → t.pc = s.pc) ∧
    t.ir = s.ir ∧ KeepsImem s t ∧
    ((∀ rn, i ≠ .push rn) → KeepsStack s t) ∧
    ((∀ rn, i ≠ .push rn) → (∀ rd, i ≠ .pop rd) → t.sp = s.sp) ∧
    ((∀ rd rn, i ≠ .strReg rd rn) → KeepsDmem s t) ∧
    ((∀ rn, i ≠ .push rn) → (∀ rd, i ≠ .pop rd) → i ≠ .halt → t.run = s.run)

/-- R26, column "read by": a register that is no source of the instruction does not affect what it does: changing it beforehand
changes nothing after but that register, and not even that where the instruction writes it (a faulting POP writes none). -/
def Obligations.OnlySourceRegistersAreRead : Prop :=
  ∀ (i : Instr) (s : State) (q : Reg) (v : Word), q ∉ i.sources →
    ∃ t u, exec i s = .next t ∧ exec i (s.setReg q v) = .next u ∧
      (i.destReg = some q → u = t ∨ (∃ c, t = s.haltWith c) ∧ u = t.setReg q v) ∧
      (i.destReg ≠ some q → u = t.setReg q v)

/-- R14: no instruction reads `C` or `O`: two machines that differ only in them step to machines that differ at most in them. -/
def Obligations.CarryAndOverflowAreNeverRead : Prop :=
  ∀ (s : State) (c o : Bool), ∃ t u, step s = .next t ∧
    step (s.setFlags ⟨s.flags.z, s.flags.s, c, o⟩) = .next u ∧
    u = t.setFlags u.flags ∧ u.flags.z = t.flags.z ∧ u.flags.s = t.flags.s

/-! ## Move, load, store (40_move_load_store.md) -/

/-- R70: MOV, register form: operands, encoding, result, no flag, no exception. -/
def Obligations.MovRegisterCopiesTheSource : Prop :=
  (∀ w : Word, w &&& 0xF800#16 = 0x1000#16 → decodeWord w = .movReg (w.extractLsb' 8 3) (w.extractLsb' 0 3)) ∧
  ∀ (rd rm : Reg) (s : State), ∃ t, exec (.movReg rd rm) s = .next t ∧ t.reg rd = s.reg rm ∧ OnlyWritesReg rd s t

/-- R71: MOV, immediate form. -/
def Obligations.MovImmediateLoadsTheZeroExtendedConstant : Prop :=
  (∀ w : Word, w &&& 0xF800#16 = 0x1800#16 → decodeWord w = .movImm (w.extractLsb' 8 3) (w.extractLsb' 0 8)) ∧
  ∀ (rd : Reg) (imm8 : BitVec 8) (s : State), ∃ t, exec (.movImm rd imm8) s = .next t ∧
    (t.reg rd).toNat = imm8.toNat ∧ OnlyWritesReg rd s t

/-- R73: STR, immediate form: `x[imm8[7:5]]` takes `imm8`; no memory is touched. -/
def Obligations.StrImmediateWritesTheRegisterItsTopBitsName : Prop :=
  (∀ w : Word, w &&& 0xF800#16 = 0x2800#16 → decodeWord w = .strImm (w.extractLsb' 0 8)) ∧
  ∀ (imm8 : BitVec 8) (s : State), ∃ t, exec (.strImm imm8) s = .next t ∧
    ∀ rk : Reg, rk.toNat = imm8.toNat / 32 → (t.reg rk).toNat = imm8.toNat ∧ OnlyWritesReg rk s t

/-- R72 (one byte is [decision] D5, the separate stack memory D8; log entries 7, 13): STR, register form, stores the low byte of
`x[rd]` at `x[rn]` and writes nothing else. -/
def Obligations.StrRegisterStoresOneByte : Prop :=
  (∀ w : Word, w &&& 0xF800#16 = 0x2000#16 → decodeWord w = .strReg (w.extractLsb' 8 3) (w.extractLsb' 5 3)) ∧
  ∀ (rd rn : Reg) (s : State), ∃ t, exec (.strReg rd rn) s = .next t ∧
    (∀ a : Word, strAddress rn s = a →
      a = s.reg rn ∧ (t.memRead a).toNat = (s.reg rd).toNat % 256 ∧ ∀ b, b ≠ a → t.memRead b = s.memRead b) ∧
    KeepsRegs s t ∧ t.flags = s.flags ∧ t.sp = s.sp ∧ KeepsFetch s t ∧ KeepsRun s t ∧ KeepsImem s t ∧ KeepsStack s t

/-- R74 (one byte is [decision] D5; log entry 7): LDR loads the byte at `x[rm]`, zero-extended. -/
def Obligations.LdrLoadsOneByteZeroExtended : Prop :=
  (∀ w : Word, w &&& 0xF000#16 = 0x3000#16 → decodeWord w = .ldr (w.extractLsb' 8 3) (w.extractLsb' 0 3)) ∧
  ∀ (rd rm : Reg) (s : State), ∃ t, exec (.ldr rd rm) s = .next t ∧
    (t.reg rd).toNat = (s.memRead (s.reg rm)).toNat ∧ OnlyWritesReg rd s t

/-- R74, R152 (one byte is [decision] D5; log entry 7): LDR directly after STR at the same address gives the stored register's
low byte. -/
def Obligations.LoadAfterStoreGivesTheLowByte : Prop :=
  ∀ (rd rn d : Reg) (s : State), ∃ t, execSeq [.strReg rd rn, .ldr d rn] s = .next t ∧
    (t.reg d).toNat = (s.reg rd).toNat % 256

/-! ## Arithmetic (41_arithmetic.md) -/

/-- R81; overflow in the two's-complement reading of R80 ([decision] D19, general knowledge G1; log entry 10). -/
def Obligations.AddGivesTheSumAndItsFlags : Prop :=
  (∀ w : Word, w &&& 0xF000#16 = 0x4000#16 →
    decodeWord w = .add (w.extractLsb' 8 3) (w.extractLsb' 5 3) (w.extractLsb' 0 3)) ∧
  ∀ (rd rn rm : Reg) (s : State), ∃ t, exec (.add rd rn rm) s = .next t ∧
    (t.reg rd).toNat = ((s.reg rn).toNat + (s.reg rm).toNat) % 65536 ∧
    (t.flags.z = true ↔ (t.reg rd).toNat = 0) ∧ (t.flags.s = true ↔ 32768 ≤ (t.reg rd).toNat) ∧
    (t.flags.c = true ↔ 65535 < (s.reg rn).toNat + (s.reg rm).toNat) ∧
    (t.flags.o = true ↔ ¬ (-32768 ≤ (s.reg rn).toInt + (s.reg rm).toInt ∧ (s.reg rn).toInt + (s.reg rm).toInt ≤ 32767)) ∧
    OnlyWritesRegAndFlags rd s t

/-- R82; overflow in the two's-complement reading of R80 ([decision] D19, general knowledge G1; log entry 10). -/
def Obligations.SubGivesTheDifferenceAndItsFlags : Prop :=
  (∀ w : Word, w &&& 0xF000#16 = 0x5000#16 →
    decodeWord w = .sub (w.extractLsb' 8 3) (w.extractLsb' 5 3) (w.extractLsb' 0 3)) ∧
  ∀ (rd rn rm : Reg) (s : State), ∃ t, exec (.sub rd rn rm) s = .next t ∧
    ((t.reg rd).toNat : Int) = ((s.reg rn).toNat - (s.reg rm).toNat : Int) % 65536 ∧
    (t.flags.z = true ↔ s.reg rn = s.reg rm) ∧ (t.flags.s = true ↔ 32768 ≤ (t.reg rd).toNat) ∧
    (t.flags.c = true ↔ (s.reg rn).toNat < (s.reg rm).toNat) ∧
    (t.flags.o = true ↔ ¬ (-32768 ≤ (s.reg rn).toInt - (s.reg rm).toInt ∧ (s.reg rn).toInt - (s.reg rm).toInt ≤ 32767)) ∧
    OnlyWritesRegAndFlags rd s t

/-- R83: MUL: the low 16 bits of the product, `Z` and `S` from them, `C = O = 0`. -/
def Obligations.MulGivesTheLowHalfOfTheProduct : Prop :=
  (∀ w : Word, w &&& 0xF000#16 = 0x6000#16 →
    decodeWord w = .mul (w.extractLsb' 8 3) (w.extractLsb' 5 3) (w.extractLsb' 0 3)) ∧
  ∀ (rd rn rm : Reg) (s : State), ∃ t, exec (.mul rd rn rm) s = .next t ∧
    (t.reg rd).toNat = (s.reg rn).toNat * (s.reg rm).toNat % 65536 ∧ LogicFlags (t.reg rd) t.flags ∧
    OnlyWritesRegAndFlags rd s t

/-! ## Logic, shifts, rotates (42_logic_shift_rotate.md) -/

/-- R90, R91, R93: AND, ORR, XOR, bit by bit, with the flag policy of R98. -/
def Obligations.AndOrrXorWorkBitByBit : Prop :=
  (∀ w : Word, (w &&& 0xF000#16 = 0x7000#16 →
      decodeWord w = .andR (w.extractLsb' 8 3) (w.extractLsb' 5 3) (w.extractLsb' 0 3)) ∧
    (w &&& 0xF000#16 = 0x8000#16 → decodeWord w = .orr (w.extractLsb' 8 3) (w.extractLsb' 5 3) (w.extractLsb' 0 3)) ∧
    (w &&& 0xF000#16 = 0xA000#16 → decodeWord w = .xorR (w.extractLsb' 8 3) (w.extractLsb' 5 3) (w.extractLsb' 0 3))) ∧
  ∀ (rd rn rm : Reg) (s : State),
    (∃ t, exec (.andR rd rn rm) s = .next t ∧
      (∀ k, k < 16 → (t.reg rd).getLsbD k = ((s.reg rn).getLsbD k && (s.reg rm).getLsbD k)) ∧
      LogicFlags (t.reg rd) t.flags ∧ OnlyWritesRegAndFlags rd s t) ∧
    (∃ t, exec (.orr rd rn rm) s = .next t ∧
      (∀ k, k < 16 → (t.reg rd).getLsbD k = ((s.reg rn).getLsbD k || (s.reg rm).getLsbD k)) ∧
      LogicFlags (t.reg rd) t.flags ∧ OnlyWritesRegAndFlags rd s t) ∧
    (∃ t, exec (.xorR rd rn rm) s = .next t ∧
      (∀ k, k < 16 → ((t.reg rd).getLsbD k = true ↔ (s.reg rn).getLsbD k ≠ (s.reg rm).getLsbD k)) ∧
      LogicFlags (t.reg rd) t.flags ∧ OnlyWritesRegAndFlags rd s t)

/-- R92: NOT: the complement within 16 bits, `0xFFFF - v`, with the flag policy of R98. -/
def Obligations.NotComplementsTheSource : Prop :=
  (∀ w : Word, w &&& 0xF000#16 = 0x9000#16 → decodeWord w = .notR (w.extractLsb' 8 3) (w.extractLsb' 5 3)) ∧
  ∀ (rd rn : Reg) (s : State), ∃ t, exec (.notR rd rn) s = .next t ∧
    (t.reg rd).toNat = 65535 - (s.reg rn).toNat ∧ LogicFlags (t.reg rd) t.flags ∧ OnlyWritesRegAndFlags rd s t

/-- R94, R95: SHR halves and SHL doubles modulo 2^16, by one place; the bit moved out is lost and does not reach `C`. -/
def Obligations.ShiftsMoveByOnePlace : Prop :=
  (∀ w : Word, (w &&& 0xF000#16 = 0xB000#16 → decodeWord w = .shr (w.extractLsb' 8 3) (w.extractLsb' 5 3)) ∧
    (w &&& 0xF000#16 = 0xC000#16 → decodeWord w = .shl (w.extractLsb' 8 3) (w.extractLsb' 5 3))) ∧
  ∀ (rd rn : Reg) (s : State),
    (∃ t, exec (.shr rd rn) s = .next t ∧ (t.reg rd).toNat = (s.reg rn).toNat / 2 ∧ t.flags.s = false ∧
      LogicFlags (t.reg rd) t.flags ∧ OnlyWritesRegAndFlags rd s t) ∧
    (∃ t, exec (.shl rd rn) s = .next t ∧ (t.reg rd).toNat = (s.reg rn).toNat * 2 % 65536 ∧
      t.flags.s = (s.reg rn).getLsbD 14 ∧ LogicFlags (t.reg rd) t.flags ∧ OnlyWritesRegAndFlags rd s t)

/-- R98: the flag policy of AND, ORR, NOT, XOR, SHR and SHL: `Z` and `S` from the value written to `x[rd]`, `C` and `O` cleared
whatever they held. -/
def Obligations.LogicFlagPolicy : Prop :=
  ∀ (rd rn rm : Reg) (s : State),
    ∀ i ∈ [Instr.andR rd rn rm, .orr rd rn rm, .notR rd rn, .xorR rd rn rm, .shr rd rn, .shl rd rn],
      ∃ t, exec i s = .next t ∧ t.flags.z = decide ((t.reg rd).toNat = 0) ∧ t.flags.s = (t.reg rd).getLsbD 15 ∧
        t.flags.c = false ∧ t.flags.o = false

/-- R96, R97 (the bit formulas are general knowledge G2; log entry 11): ROR and ROL move every bit by one place round the 16 bits;
flags kept. -/
def Obligations.RotatesMoveByOnePlaceAndKeepFlags : Prop :=
  (∀ w : Word, (w &&& 0xF000#16 = 0xD000#16 → decodeWord w = .ror (w.extractLsb' 8 3) (w.extractLsb' 5 3)) ∧
    (w &&& 0xF000#16 = 0xE000#16 → decodeWord w = .rol (w.extractLsb' 8 3) (w.extractLsb' 5 3))) ∧
  ∀ (rd rn : Reg) (s : State),
    (∃ t, exec (.ror rd rn) s = .next t ∧
      (∀ k, k < 16 → (t.reg rd).getLsbD k = (s.reg rn).getLsbD ((k + 1) % 16)) ∧ OnlyWritesReg rd s t) ∧
    (∃ t, exec (.rol rd rn) s = .next t ∧
      (∀ k, k < 16 → (t.reg rd).getLsbD ((k + 1) % 16) = (s.reg rn).getLsbD k) ∧ OnlyWritesReg rd s t)

/-- R96, R97, corner cases (general knowledge G2): sixteen RORs, sixteen ROLs, and a ROR followed by a ROL, leave the machine as
it was. -/
def Obligations.SixteenRotationsRestoreTheMachine : Prop :=
  ∀ (r : Reg) (s : State),
    execSeq (List.replicate 16 (.ror r r)) s = .next s ∧ execSeq (List.replicate 16 (.rol r r)) s = .next s ∧
    execSeq [.ror r r, .rol r r] s = .next s

/-! ## Stack (43_stack.md) -/

/-- R100, R36 (the region below `STACK_BASE` is [decision] D6, the check D9; log entries 15, 14): a PUSH that fits stores the
low byte at `sp - 1`, the high byte at `sp - 2`, leaves `sp - 2`, and writes nothing else. -/
def Obligations.PushStoresLowByteAboveHighByte : Prop :=
  (∀ w : Word, w &&& 0xF803#16 = 0x0001#16 → decodeWord w = .push (w.extractLsb' 5 3)) ∧
  ∀ (rn : Reg) (s : State), Config.stackBase.toNat + 2 ≤ s.sp.addr.toNat + 16 →
    ∃ t, exec (.push rn) s = .next t ∧ t.sp.addr = s.sp.addr - 2#16 ∧
      (∃ lo hi : Byte, t.stkRead (s.sp.addr - 1#16) = some lo ∧ t.stkRead (s.sp.addr - 2#16) = some hi ∧
        hi.toNat * 256 + lo.toNat = (s.reg rn).toNat) ∧
      (∀ a : Word, a ≠ s.sp.addr - 1#16 → a ≠ s.sp.addr - 2#16 → t.stkRead a = s.stkRead a) ∧
      KeepsRegs s t ∧ t.flags = s.flags ∧ KeepsFetch s t ∧ KeepsRun s t ∧ KeepsImem s t ∧ KeepsDmem s t

/-- R101 (the byte order is [derived] in R36, the check [decision] D9; log entries 21, 14): a POP that finds two bytes takes the
high byte from `sp`, the low byte from `sp + 1`, leaves `sp + 2`, and changes no byte of the stack. -/
def Obligations.PopLoadsHighByteThenLowByte : Prop :=
  (∀ w : Word, w &&& 0xF803#16 = 0x0002#16 → decodeWord w = .pop (w.extractLsb' 8 3)) ∧
  ∀ (rd : Reg) (s : State), s.sp.addr.toNat + 2 ≤ Config.stackBase.toNat →
    ∃ t, exec (.pop rd) s = .next t ∧ t.sp.addr = s.sp.addr + 2#16 ∧
      (∃ lo hi : Byte, s.stkRead s.sp.addr = some hi ∧ s.stkRead (s.sp.addr + 1#16) = some lo ∧
        (t.reg rd).toNat = hi.toNat * 256 + lo.toNat) ∧
      KeepsRegsBut rd s t ∧ t.flags = s.flags ∧ KeepsFetch s t ∧ KeepsRun s t ∧ KeepsMemories s t

/-- R131, R132, R133 ([decision] D9, D10; log entry 14): where PUSH overflows and POP underflows, and that nothing but `run` and
the dump count changes. -/
def Obligations.StackFaultsHaltAndChangeNothingElse : Prop :=
  (∀ (rn : Reg) (s : State), (s.sp.addr.toNat : Int) - 2 < Config.stackBase.toNat - 16 →
    ∃ t, exec (.push rn) s = .next t ∧ t.run = .halted .stackOverflow ∧ t.dumps = s.dumps + 1 ∧ KeepsAllButRun s t) ∧
  (∀ (rd : Reg) (s : State), Config.stackBase.toNat < s.sp.addr.toNat + 2 →
    ∃ t, exec (.pop rd) s = .next t ∧ t.run = .halted .stackUnderflow ∧ t.dumps = s.dumps + 1 ∧ KeepsAllButRun s t)

/-- R102 (its general sentence is [derived]; that a STR in between leaves the pushed bytes alone is [decision] D8, log entry
13): last in, first out. From any state with depth at most 14, a PUSH, then any instructions that contain balanced PUSH/POP
pairs and no fault, then a POP, writes the pushed value and restores `sp`. -/
def Obligations.PopRestoresWhatPushPushed : Prop :=
  ∀ (rn rd : Reg) (inner : List Instr) (s s1 s2 : State), s.sp.depth.val ≤ 14 → Balanced inner →
    exec (.push rn) s = .next s1 → NoStackFault inner s1 → execSeq inner s1 = .next s2 →
    ∃ t, exec (.pop rd) s2 = .next t ∧ t.reg rd = s.reg rn ∧ t.sp = s.sp

/-- R103 (the addresses rest on [decision] D6; log entry 15): from an empty stack, `k` pushes, up to 8, leave `sp = STACK_BASE -
2k`, and the ninth overflows with `sp` still `STACK_BASE - 16`; a POP of the empty stack underflows. -/
def Obligations.StackHoldsEightValues : Prop :=
  ∀ s : State, s.run = .running → s.sp.addr = Config.stackBase →
    (∀ rs : List Reg, rs.length ≤ 8 → ∃ t, execSeq (rs.map .push) s = .next t ∧ t.run = .running ∧
      t.sp.addr.toNat = Config.stackBase.toNat - 2 * rs.length) ∧
    (∀ (rs : List Reg) (r : Reg), rs.length = 8 → ∃ t, execSeq (rs.map .push ++ [.push r]) s = .next t ∧
      t.run = .halted .stackOverflow ∧ t.sp.addr.toNat = Config.stackBase.toNat - 16) ∧
    (∀ r : Reg, ∃ t, exec (.pop r) s = .next t ∧ t.run = .halted .stackUnderflow)

/-! ## Compare and branch (44_compare_branch.md) -/

/-- R110 (overflow is [decision] D19; log entry 10): CMP sets exactly the flags SUB would, and writes no register; a word of CMP
names R3 or R7 as second source. -/
def Obligations.CmpSetsTheFlagsOfSubAndNothingElse : Prop :=
  (∀ w : Word, w &&& 0xF803#16 = 0x0003#16 →
    decodeWord w = .cmp (w.extractLsb' 5 3) (if w.getLsbD 2 then 7#3 else 3#3)) ∧
  ∀ (rn rm d : Reg) (s : State), ∃ t u, exec (.cmp rn rm) s = .next t ∧ exec (.sub d rn rm) s = .next u ∧
    t.flags = u.flags ∧ (t.flags.z = true ↔ s.reg rn = s.reg rm) ∧
    (t.flags.c = true ↔ (s.reg rn).toNat < (s.reg rm).toNat) ∧
    KeepsRegs s t ∧ t.sp = s.sp ∧ KeepsFetch s t ∧ KeepsRun s t ∧ KeepsMemories s t

/-- R111, R112 (the zero-extension is [decision] D3; log entry 2): JMP adds `imm8` to the advanced `pc`, and changes nothing
else. -/
def Obligations.JmpAddsTheDisplacement : Prop :=
  (∀ w : Word, w &&& 0xF803#16 = 0x0800#16 → decodeWord w = .jmp (w.extractLsb' 0 8)) ∧
  ∀ (imm8 : BitVec 8) (s : State), ∃ t, exec (.jmp imm8) s = .next t ∧
    t.pc.toNat = (s.pc.toNat + imm8.toNat) % 65536 ∧ KeepsAllButPc s t

/-- R111, R113, R114, R115 (the zero-extension is [decision] D3; log entry 2): when each conditional branch is taken, where it
goes, and that it changes nothing else. -/
def Obligations.ConditionalBranchesTestZAndS : Prop :=
  (∀ w : Word, (w &&& 0xF803#16 = 0x0801#16 → decodeWord w = .jeq (w.extractLsb' 0 8)) ∧
    (w &&& 0xF803#16 = 0x0802#16 → decodeWord w = .jlt (w.extractLsb' 0 8)) ∧
    (w &&& 0xF803#16 = 0x0803#16 → decodeWord w = .jgt (w.extractLsb' 0 8))) ∧
  ∀ (imm8 : BitVec 8) (s : State),
    (∃ t, exec (.jeq imm8) s = .next t ∧ KeepsAllButPc s t ∧
      t.pc.toNat = (s.pc.toNat + if s.flags.z = true then imm8.toNat else 0) % 65536) ∧
    (∃ t, exec (.jlt imm8) s = .next t ∧ KeepsAllButPc s t ∧
      t.pc.toNat = (s.pc.toNat + if s.flags.s = true ∧ s.flags.z = false then imm8.toNat else 0) % 65536) ∧
    (∃ t, exec (.jgt imm8) s = .next t ∧ KeepsAllButPc s t ∧
      t.pc.toNat = (s.pc.toNat + if s.flags.z = false ∧ s.flags.s = false then imm8.toNat else 0) % 65536)

/-- R115, corner cases: in any flag state one result can produce (`Z` and `S` not both 1), exactly one of JEQ, JLT, JGT moves
`pc`, each with any displacement it can carry. -/
def Obligations.ExactlyOneConditionalBranchIsTaken : Prop :=
  ∀ (e l g : BitVec 8) (s : State), (Instr.jeq e).wf = true → (Instr.jlt l).wf = true → (Instr.jgt g).wf = true →
    (s.flags.z && s.flags.s) = false →
    ∃ te tl tg, exec (.jeq e) s = .next te ∧ exec (.jlt l) s = .next tl ∧ exec (.jgt g) s = .next tg ∧
      ((te.pc ≠ s.pc ∧ tl.pc = s.pc ∧ tg.pc = s.pc) ∨ (te.pc = s.pc ∧ tl.pc ≠ s.pc ∧ tg.pc = s.pc) ∨
        (te.pc = s.pc ∧ tl.pc = s.pc ∧ tg.pc ≠ s.pc))

/-- R113, R114, R152 (the zero-extension is [decision] D3; log entry 2): directly after a CMP, JEQ is taken exactly when the two
registers are equal, JLT exactly when bit 15 of the 16-bit difference is 1 (so never when they are equal). -/
def Obligations.BranchesAfterCompare : Prop :=
  ∀ (rn rm : Reg) (imm8 : BitVec 8) (s : State),
    (∃ t, execSeq [.cmp rn rm, .jeq imm8] s = .next t ∧
      t.pc.toNat = (s.pc.toNat + if s.reg rn = s.reg rm then imm8.toNat else 0) % 65536) ∧
    (∃ t, execSeq [.cmp rn rm, .jlt imm8] s = .next t ∧
      t.pc.toNat = (s.pc.toNat + if (s.reg rn - s.reg rm).getLsbD 15 = true then imm8.toNat else 0) % 65536) ∧
    (∃ t, execSeq [.cmp rn rm, .jgt imm8] s = .next t ∧
      t.pc.toNat = (s.pc.toNat +
        if s.reg rn ≠ s.reg rm ∧ (s.reg rn - s.reg rm).getLsbD 15 = false then imm8.toNat else 0) % 65536)

/-! ## System (45_system.md) -/

/-- R120 (the Dump is [decision] D17; log entry 8): NOP: one Dump event, no state mutation; in a step, only the fetch's. -/
def Obligations.NopEmitsADumpAndNothingElse : Prop :=
  (∀ w : Word, w &&& 0xF803#16 = 0x0000#16 → decodeWord w = .nop) ∧
  (∀ s : State, ∃ t, exec .nop s = .next t ∧ t.dumps = s.dumps + 1 ∧ t.run = s.run ∧ KeepsAllButRun s t) ∧
  ∀ s : State, s.run = .running → s.fetchWord &&& 0xF803#16 = 0x0000#16 →
    ∃ t, step s = .next t ∧ t.pc = s.pc + 2#16 ∧ t.ir = s.fetchWord ∧ t.dumps = s.dumps + 1 ∧ t.run = .running ∧
      KeepsRegs s t ∧ t.flags = s.flags ∧ t.sp = s.sp ∧ KeepsMemories s t

/-- R121 (the cause and the exit status are [decision] D16, the Dump D17; log entries 16, 8; that a step of the halted machine
answers the same state is the model's choice where R28 says that it takes none, log entry 12): HALT: `HALTED(Clean)` and one
Dump event; `pc` rests past the HALT, `ir` holds its word, all else keeps its value, and no further step is taken. -/
def Obligations.HaltStopsTheMachineCleanly : Prop :=
  (∀ w : Word, w &&& 0xF803#16 = 0xF803#16 → decodeWord w = .halt) ∧
  (∀ s : State, ∃ t, exec .halt s = .next t ∧ t.run = .halted .clean ∧ t.dumps = s.dumps + 1 ∧ KeepsAllButRun s t) ∧
  ∀ s : State, s.run = .running → s.fetchWord &&& 0xF803#16 = 0xF803#16 →
    ∃ t, step s = .next t ∧ t.run = .halted .clean ∧ t.exitStatus = some 0 ∧ t.pc = s.pc + 2#16 ∧ t.ir = s.fetchWord ∧
      t.dumps = s.dumps + 1 ∧ KeepsRegs s t ∧ t.flags = s.flags ∧ t.sp = s.sp ∧ KeepsMemories s t ∧ step t = .next t

/-- R122 (no dump is [derived]; log entry 23): an unrecognised word of any of the four classes does nothing but what the fetch
does. -/
def Obligations.UnrecognisedWordsAreSilentNoOps : Prop :=
  (∀ i ∈ [Instr.undImm0, .undMode0, .undMode1, .undMode2], ∀ s : State, ∃ t, exec i s = .next t ∧ t = s) ∧
  ∀ s : State, s.run = .running → s.fetchWord &&& 0xF000#16 = 0xF000#16 → s.fetchWord &&& 0xF803#16 ≠ 0xF803#16 →
    ∃ t, step s = .next t ∧ t.pc = s.pc + 2#16 ∧ t.ir = s.fetchWord ∧ KeepsRun s t ∧ KeepsRegs s t ∧ t.flags = s.flags ∧
      t.sp = s.sp ∧ KeepsMemories s t

/-! ## Memories (20_memory.md) -/

/-- R41 (c) (the reset value 0 is [decision] D14; log entry 5): after any writes to a store, a byte reads as the latest write to
it, or 0 if there is none. -/
def Obligations.AReadGivesTheLatestWrite : Prop :=
  ∀ (writes : List (Nat × Byte)) (a : Nat),
    (writes.foldl (fun (m : Memory) w => m.write w.1 w.2) []).read a =
      ((writes.reverse.find? (fun w => w.1 == a)).map (·.2)).getD 0#8

/-- The model's representation (log entry 5): in canonical form, stores that read alike are the same data. -/
def Obligations.CanonicalStoresThatReadAlikeAreEqual : Prop :=
  ∀ (size : Nat) (m k : Memory), m.wf size = true → k.wf size = true → (∀ a, a < size → m.read a = k.read a) → m = k

/-- R31, R45 (the wrap is [decision] D4, the zero fill D14, a later line overwriting is [derived]; log entries 5, 6, 9): a line
`(A, V)` puts the low byte of `V` at `A` and the high byte at `A + 1`, every other byte stays what the lines before left, and a
machine booted on the image with `pc = A` fetches `V`. -/
def Obligations.LoadedWordsAreFetched : Prop :=
  ∀ (lines : List (Word × Word)) (A V : Word) (s : State), s.imem = loadImage (lines ++ [(A, V)]) →
    (s.fetchByte A).toNat = V.toNat % 256 ∧ (s.fetchByte (A + 1#16)).toNat = V.toNat / 256 ∧
    (∀ a : Word, a ≠ A → a ≠ A + 1#16 → s.fetchByte a = (loadImage lines).read a.toNat) ∧
    (s.pc = A → s.fetchWord = V) ∧ ∀ a : Word, (loadImage []).read a.toNat = 0#8
end

