-- ==== Sys2Proof/Laws/Memory.lean ====
section
/-! SUPPORT. The laws of a store: what a write reads back, and that every operation keeps the canonical form. -/

namespace Sys2Proof.Machine.Memory

@[simp] theorem read_nil (a : Nat) : Memory.read [] a = 0#8 := rfl

theorem read_cons (k : Nat) (v : Byte) (m : Memory) (a : Nat) :
    Memory.read ((k, v) :: m) a = if k = a then v else Memory.read m a := rfl

theorem read_insertCell (m : Memory) (a : Nat) (v : Byte) (b : Nat) :
    (m.insertCell a v).read b = if b = a then v else m.read b := by
  induction m with
  | nil => simp [insertCell, read_cons, eq_comm]
  | cons c m ih =>
    obtain ⟨k, x⟩ := c
    simp only [insertCell]
    split
    · rw [read_cons, read_cons, ih]
      split <;> rename_i hk
      · subst hk; split <;> [omega; rfl]
      · rfl
    · split
      · rename_i hk; subst hk
        simp only [read_cons, eq_comm (a := b)]
        split <;> simp_all
      · rw [read_cons]
        simp only [eq_comm (a := b)]

theorem read_filter_ne (m : Memory) (a b : Nat) :
    Memory.read (m.filter (fun c => c.1 != a)) b = if b = a then 0#8 else m.read b := by
  induction m with
  | nil => simp
  | cons c m ih =>
    obtain ⟨k, x⟩ := c
    by_cases hk : k = a
    · subst hk
      rw [List.filter_cons_of_neg (by simp), ih, read_cons]
      by_cases hb : b = k <;> simp [hb, eq_comm]
    · rw [List.filter_cons_of_pos (by simpa using hk), read_cons, ih, read_cons]
      by_cases hb : b = a
      · subst hb; simp [hk]
      · simp [hb]

/-- Read after write: the written address gives the value, every other address what it gave. -/
@[simp] theorem read_write (m : Memory) (a : Nat) (v : Byte) (b : Nat) :
    (m.write a v).read b = if b = a then v else m.read b := by
  unfold write
  split
  · rename_i hv; rw [read_filter_ne, hv]; rfl
  · exact read_insertCell m a v b

theorem wf_cons (n k : Nat) (v : Byte) (m : Memory) :
    Memory.wf n ((k, v) :: m) = true ↔ k < n ∧ v ≠ 0#8 ∧ (∀ c ∈ m, k < c.1) ∧ Memory.wf n m = true := by
  simp [wf, unlisted, and_assoc]

theorem mem_insertCell (m : Memory) (a : Nat) (v : Byte) (c : Host.Cell) :
    c ∈ m.insertCell a v → c = (a, v) ∨ c ∈ m := by
  induction m with
  | nil => simp [insertCell]
  | cons d m ih =>
    obtain ⟨k, x⟩ := d
    simp only [insertCell]
    split
    · simp only [List.mem_cons]
      rintro (h | h)
      · exact .inr (.inl h)
      · rcases ih h with h | h
        · exact .inl h
        · exact .inr (.inr h)
    · split <;> simp only [List.mem_cons]
      · rintro (h | h)
        · exact .inl h
        · exact .inr (.inr h)
      · exact id

theorem wf_insertCell {n : Nat} {m : Memory} {a : Nat} {v : Byte} (hm : m.wf n = true) (ha : a < n) (hv : v ≠ 0#8) :
    (m.insertCell a v).wf n = true := by
  induction m with
  | nil => simpa [insertCell, wf, unlisted] using ⟨ha, hv⟩
  | cons c m ih =>
    obtain ⟨k, x⟩ := c
    obtain ⟨hk, hx, hlt, hm'⟩ := (wf_cons ..).1 hm
    simp only [insertCell]
    split
    · refine (wf_cons ..).2 ⟨hk, hx, fun c hc => ?_, ih hm'⟩
      rcases mem_insertCell m a v c hc with h | h
      · rw [h]; assumption
      · exact hlt c h
    · split
      · rename_i h; subst h
        exact (wf_cons ..).2 ⟨ha, hv, hlt, hm'⟩
      · refine (wf_cons ..).2 ⟨ha, hv, fun c hc => ?_, hm⟩
        rcases List.mem_cons.1 hc with h | h
        · rw [h]; show a < k; omega
        · have := hlt c h; omega

theorem wf_filter {n : Nat} {m : Memory} (p : Host.Cell → Bool) (hm : m.wf n = true) :
    Memory.wf n (m.filter p) = true := by
  induction m with
  | nil => rfl
  | cons c m ih =>
    obtain ⟨k, x⟩ := c
    obtain ⟨hk, hx, hlt, hm'⟩ := (wf_cons ..).1 hm
    by_cases hp : p (k, x) = true
    · rw [List.filter_cons_of_pos hp]
      exact (wf_cons ..).2 ⟨hk, hx, fun c hc => hlt c (List.mem_filter.1 hc).1, ih hm'⟩
    · rw [List.filter_cons_of_neg hp]; exact ih hm'

/-- A write inside the store keeps the canonical form. -/
theorem wf_write {n : Nat} {m : Memory} {a : Nat} {v : Byte} (hm : m.wf n = true) (ha : a < n) :
    (m.write a v).wf n = true := by
  unfold write
  split
  · exact wf_filter _ hm
  · rename_i hv; exact wf_insertCell hm ha hv

/-- Storing a word keeps the canonical form of a 65536-byte store. -/
theorem wf_storeWord {m : Memory} {a v : Word} (hm : m.wf Config.memorySize = true) :
    (m.storeWord a v).wf Config.memorySize = true :=
  wf_write (wf_write hm a.isLt) (a + 1#16).isLt

/-- What a stored word reads back as, byte by byte. -/
theorem read_storeWord (m : Memory) (a v : Word) (b : Nat) :
    (m.storeWord a v).read b =
      if b = (a + 1#16).toNat then highByte v else if b = a.toNat then lowByte v else m.read b := by
  simp [storeWord]

end Sys2Proof.Machine.Memory

namespace Sys2Proof.Machine.State

/-- A data-memory write, read back (20_memory.md R38, R41). -/
@[simp] theorem memWrite_memRead (s : State) (a : Word) (v : Byte) (b : Word) :
    (s.memWrite a v).memRead b = if b = a then v else s.memRead b := by
  simp [memRead, memWrite, BitVec.toNat_inj]

end Sys2Proof.Machine.State
end

