-- ==== Sys2Proof/Laws/Bits.lean ====
section
/-! SUPPORT. Bytes, extensions, shifts, rotates and flags as numbers. -/

namespace Sys2Proof

@[simp] theorem joinBytes_high_low (w : Word) : joinBytes (highByte w) (lowByte w) = w := by
  apply BitVec.eq_of_getLsbD_eq
  intro i hi
  simp only [joinBytes, highByte, lowByte, BitVec.getLsbD_append, BitVec.getLsbD_extractLsb']
  split
  · simp [*]
  · have : i - 8 < 8 := by omega
    simp only [this, decide_true, Bool.true_and]
    congr 1; omega

theorem joinBytes_toNat (hi lo : Byte) : (joinBytes hi lo).toNat = hi.toNat * 256 + lo.toNat := by
  have h := lo.isLt
  rw [joinBytes, BitVec.toNat_append, Nat.shiftLeft_eq, Nat.mul_comm, ← Nat.two_pow_add_eq_or_of_lt h]

theorem lowByte_toNat (w : Word) : (lowByte w).toNat = w.toNat % 256 := by
  simp [lowByte]

theorem highByte_toNat (w : Word) : (highByte w).toNat = w.toNat / 256 := by
  have := w.isLt
  simp only [highByte, BitVec.extractLsb'_toNat, Nat.shiftRight_eq_div_pow]
  omega

end Sys2Proof

namespace Sys2Proof.Machine

theorem zext16_toNat (v : BitVec 8) : (zext16 v).toNat = v.toNat := by
  have := v.isLt
  simp only [zext16, BitVec.truncate_eq_setWidth, BitVec.toNat_setWidth]
  omega

@[simp] theorem displacement_eq (imm8 : BitVec 8) : displacement imm8 = zext16 imm8 := rfl

theorem shiftRightOne_toNat (v : Word) : (shiftRightOne v).toNat = v.toNat / 2 := by
  have := v.isLt
  rw [shiftRightOne, BitVec.toNat_append]
  simp only [BitVec.extractLsb'_toNat, Nat.shiftRight_eq_div_pow]
  simp
  omega

theorem shiftLeftOne_toNat (v : Word) : (shiftLeftOne v).toNat = v.toNat * 2 % 65536 := by
  have := v.isLt
  rw [shiftLeftOne, BitVec.toNat_append]
  simp [Nat.shiftLeft_eq]
  omega

theorem rotateRightOne_toNat (v : Word) : (rotateRightOne v).toNat = v.toNat / 2 + v.toNat % 2 * 32768 := by
  have h := v.isLt
  rw [rotateRightOne, BitVec.toNat_append]
  simp only [BitVec.extractLsb'_toNat, Nat.shiftLeft_eq]
  rw [Nat.mul_comm _ (2 ^ 15), ← Nat.two_pow_add_eq_or_of_lt (Nat.mod_lt _ (by decide))]
  simp only [Nat.shiftRight_eq_div_pow]
  omega

theorem rotateLeftOne_toNat (v : Word) : (rotateLeftOne v).toNat = v.toNat * 2 % 65536 + v.toNat / 32768 := by
  have h := v.isLt
  rw [rotateLeftOne, BitVec.toNat_append]
  simp only [BitVec.extractLsb'_toNat, Nat.shiftLeft_eq]
  rw [Nat.mul_comm _ (2 ^ 1), ← Nat.two_pow_add_eq_or_of_lt (Nat.mod_lt _ (by decide))]
  simp only [Nat.shiftRight_eq_div_pow]
  omega

/-- `Z` and `S` of one result are never both 1 (44_compare_branch.md R114). -/
theorem zf_and_sf (r : Word) : (zf r && sf r) = false := by
  by_cases h : r = 0#16 <;> simp [zf, sf, h]

theorem zf_iff (r : Word) : zf r = true ↔ r.toNat = 0 := by
  simp [zf, ← BitVec.toNat_inj]

theorem sf_iff (r : Word) : sf r = true ↔ 32768 ≤ r.toNat := by
  simp [sf, BitVec.msb_eq_decide]

end Sys2Proof.Machine
end

