-- ==== Sys2Proof/Laws/Decode.lean ====
section
/-! SUPPORT. The fields of a word built by each format of 30_encoding.md R53, and masks against fields. -/

namespace Sys2Proof

@[simp] theorem opcodeOf_formatR (op : BitVec 4) (rd rn rm : Reg) : opcodeOf (formatR op rd rn rm) = op := by
  apply BitVec.eq_of_getLsbD_eq
  intro j hj
  simp only [opcodeOf, formatR, BitVec.getLsbD_extractLsb', BitVec.getLsbD_append]
  interval_cases j <;> simp

@[simp] theorem immModeOf_formatR (op : BitVec 4) (rd rn rm : Reg) : immModeOf (formatR op rd rn rm) = 0#1 := by
  apply BitVec.eq_of_getLsbD_eq
  intro j hj
  simp only [immModeOf, formatR, BitVec.getLsbD_extractLsb', BitVec.getLsbD_append]
  interval_cases j; simp

@[simp] theorem rdOf_formatR (op : BitVec 4) (rd rn rm : Reg) : rdOf (formatR op rd rn rm) = rd := by
  apply BitVec.eq_of_getLsbD_eq
  intro j hj
  simp only [rdOf, formatR, BitVec.getLsbD_extractLsb', BitVec.getLsbD_append]
  interval_cases j <;> simp

@[simp] theorem rnOf_formatR (op : BitVec 4) (rd rn rm : Reg) : rnOf (formatR op rd rn rm) = rn := by
  apply BitVec.eq_of_getLsbD_eq
  intro j hj
  simp only [rnOf, formatR, BitVec.getLsbD_extractLsb', BitVec.getLsbD_append]
  interval_cases j <;> simp

@[simp] theorem rmOf_formatR (op : BitVec 4) (rd rn rm : Reg) : rmOf (formatR op rd rn rm) = rm := by
  apply BitVec.eq_of_getLsbD_eq
  intro j hj
  simp only [rmOf, formatR, BitVec.getLsbD_extractLsb', BitVec.getLsbD_append]
  interval_cases j <;> simp

@[simp] theorem opcodeOf_formatI (op : BitVec 4) (rd : Reg) (imm8 : BitVec 8) : opcodeOf (formatI op rd imm8) = op := by
  apply BitVec.eq_of_getLsbD_eq
  intro j hj
  simp only [opcodeOf, formatI, BitVec.getLsbD_extractLsb', BitVec.getLsbD_append]
  interval_cases j <;> simp

@[simp] theorem immModeOf_formatI (op : BitVec 4) (rd : Reg) (imm8 : BitVec 8) : immModeOf (formatI op rd imm8) = 1#1 := by
  apply BitVec.eq_of_getLsbD_eq
  intro j hj
  simp only [immModeOf, formatI, BitVec.getLsbD_extractLsb', BitVec.getLsbD_append]
  interval_cases j; simp

@[simp] theorem rdOf_formatI (op : BitVec 4) (rd : Reg) (imm8 : BitVec 8) : rdOf (formatI op rd imm8) = rd := by
  apply BitVec.eq_of_getLsbD_eq
  intro j hj
  simp only [rdOf, formatI, BitVec.getLsbD_extractLsb', BitVec.getLsbD_append]
  interval_cases j <;> simp

@[simp] theorem imm8Of_formatI (op : BitVec 4) (rd : Reg) (imm8 : BitVec 8) : imm8Of (formatI op rd imm8) = imm8 := by
  apply BitVec.eq_of_getLsbD_eq
  intro j hj
  simp only [imm8Of, formatI, BitVec.getLsbD_extractLsb', BitVec.getLsbD_append]
  interval_cases j <;> simp

@[simp] theorem opcodeOf_formatS (rd rn : Reg) (b : BitVec 1) (m : BitVec 2) : opcodeOf (formatS rd rn b m) = 0#4 := by
  apply BitVec.eq_of_getLsbD_eq
  intro j hj
  simp only [opcodeOf, formatS, BitVec.getLsbD_extractLsb', BitVec.getLsbD_append]
  interval_cases j <;> simp

@[simp] theorem immModeOf_formatS (rd rn : Reg) (b : BitVec 1) (m : BitVec 2) : immModeOf (formatS rd rn b m) = 0#1 := by
  apply BitVec.eq_of_getLsbD_eq
  intro j hj
  simp only [immModeOf, formatS, BitVec.getLsbD_extractLsb', BitVec.getLsbD_append]
  interval_cases j; simp

@[simp] theorem rdOf_formatS (rd rn : Reg) (b : BitVec 1) (m : BitVec 2) : rdOf (formatS rd rn b m) = rd := by
  apply BitVec.eq_of_getLsbD_eq
  intro j hj
  simp only [rdOf, formatS, BitVec.getLsbD_extractLsb', BitVec.getLsbD_append]
  interval_cases j <;> simp

@[simp] theorem rnOf_formatS (rd rn : Reg) (b : BitVec 1) (m : BitVec 2) : rnOf (formatS rd rn b m) = rn := by
  apply BitVec.eq_of_getLsbD_eq
  intro j hj
  simp only [rnOf, formatS, BitVec.getLsbD_extractLsb', BitVec.getLsbD_append]
  interval_cases j <;> simp

@[simp] theorem modeOf_formatS (rd rn : Reg) (b : BitVec 1) (m : BitVec 2) : modeOf (formatS rd rn b m) = m := by
  apply BitVec.eq_of_getLsbD_eq
  intro j hj
  simp only [modeOf, formatS, BitVec.getLsbD_extractLsb', BitVec.getLsbD_append]
  interval_cases j <;> simp

@[simp] theorem rmOf_formatS (rd rn : Reg) (b : BitVec 1) (m : BitVec 2) : rmOf (formatS rd rn b m) = b ++ m := by
  apply BitVec.eq_of_getLsbD_eq
  intro j hj
  simp only [rmOf, formatS, BitVec.getLsbD_extractLsb', BitVec.getLsbD_append]
  interval_cases j <;> simp

@[simp] theorem opcodeOf_formatB (imm8 : BitVec 8) : opcodeOf (formatB imm8) = 0#4 := by
  apply BitVec.eq_of_getLsbD_eq
  intro j hj
  simp only [opcodeOf, formatB, BitVec.getLsbD_extractLsb', BitVec.getLsbD_append]
  interval_cases j <;> simp

@[simp] theorem immModeOf_formatB (imm8 : BitVec 8) : immModeOf (formatB imm8) = 1#1 := by
  apply BitVec.eq_of_getLsbD_eq
  intro j hj
  simp only [immModeOf, formatB, BitVec.getLsbD_extractLsb', BitVec.getLsbD_append]
  interval_cases j; simp

@[simp] theorem imm8Of_formatB (imm8 : BitVec 8) : imm8Of (formatB imm8) = imm8 := by
  apply BitVec.eq_of_getLsbD_eq
  intro j hj
  simp only [imm8Of, formatB, BitVec.getLsbD_extractLsb', BitVec.getLsbD_append]
  interval_cases j <;> simp

@[simp] theorem modeOf_formatB (imm8 : BitVec 8) : modeOf (formatB imm8) = conditionBits imm8 := by
  apply BitVec.eq_of_getLsbD_eq
  intro j hj
  simp only [modeOf, formatB, conditionBits, BitVec.getLsbD_extractLsb', BitVec.getLsbD_append]
  interval_cases j <;> simp

@[simp] theorem opcodeOf_formatH (i : BitVec 1) (m : BitVec 2) : opcodeOf (formatH i m) = 15#4 := by
  apply BitVec.eq_of_getLsbD_eq
  intro j hj
  simp only [opcodeOf, formatH, BitVec.getLsbD_extractLsb', BitVec.getLsbD_append]
  interval_cases j <;> simp

@[simp] theorem immModeOf_formatH (i : BitVec 1) (m : BitVec 2) : immModeOf (formatH i m) = i := by
  apply BitVec.eq_of_getLsbD_eq
  intro j hj
  simp only [immModeOf, formatH, BitVec.getLsbD_extractLsb', BitVec.getLsbD_append]
  interval_cases j; simp

@[simp] theorem modeOf_formatH (i : BitVec 1) (m : BitVec 2) : modeOf (formatH i m) = m := by
  apply BitVec.eq_of_getLsbD_eq
  intro j hj
  simp only [modeOf, formatH, BitVec.getLsbD_extractLsb', BitVec.getLsbD_append]
  interval_cases j <;> simp

/-- A field of a word under a mask: how a mask/value condition of the opcode table fixes the fields of a word. -/
theorem extractLsb'_of_and_eq {w m v : Word} (h : w &&& m = v) (i n : Nat) :
    w.extractLsb' i n &&& m.extractLsb' i n = v.extractLsb' i n := by
  rw [← BitVec.extractLsb'_and, h]

/-- A word under the mask 0xF000: `opcode` alone. -/
theorem and_F000_fields (w : Word) (c : BitVec 4) : w &&& 0xF000#16 = c ++ 0#12 ↔ opcodeOf w = c := by
  constructor
  · intro h
    apply BitVec.eq_of_getLsbD_eq
    intro j hj
    have hb := congrArg (BitVec.getLsbD · (j + 12)) h
    simp only [BitVec.getLsbD_and, opcodeOf, BitVec.getLsbD_append, BitVec.getLsbD_extractLsb'] at hb ⊢
    interval_cases j <;> simpa using hb
  · rintro rfl
    apply BitVec.eq_of_getLsbD_eq
    intro j hj
    simp only [BitVec.getLsbD_and, opcodeOf, BitVec.getLsbD_append, BitVec.getLsbD_extractLsb']
    interval_cases j <;> simp

/-- A word under the mask 0xF800: `opcode` and `I`. -/
theorem and_F800_fields (w : Word) (c : BitVec 4) (b : BitVec 1) :
    w &&& 0xF800#16 = c ++ b ++ 0#11 ↔ opcodeOf w = c ∧ immModeOf w = b := by
  constructor
  · intro h
    constructor
    · apply BitVec.eq_of_getLsbD_eq
      intro j hj
      have hb := congrArg (BitVec.getLsbD · (j + 12)) h
      simp only [BitVec.getLsbD_and, opcodeOf, BitVec.getLsbD_append, BitVec.getLsbD_extractLsb'] at hb ⊢
      interval_cases j <;> simpa using hb
    · apply BitVec.eq_of_getLsbD_eq
      intro j hj
      have hb := congrArg (BitVec.getLsbD · (j + 11)) h
      simp only [BitVec.getLsbD_and, immModeOf, BitVec.getLsbD_append, BitVec.getLsbD_extractLsb'] at hb ⊢
      interval_cases j; simpa using hb
  · rintro ⟨rfl, rfl⟩
    apply BitVec.eq_of_getLsbD_eq
    intro j hj
    simp only [BitVec.getLsbD_and, opcodeOf, immModeOf, BitVec.getLsbD_append, BitVec.getLsbD_extractLsb']
    interval_cases j <;> simp

/-- A word under the mask 0xF803: `opcode`, `I` and `mode_bits`. -/
theorem and_F803_fields (w : Word) (c : BitVec 4) (b : BitVec 1) (m : BitVec 2) :
    w &&& 0xF803#16 = c ++ b ++ 0#9 ++ m ↔ opcodeOf w = c ∧ immModeOf w = b ∧ modeOf w = m := by
  constructor
  · intro h
    refine ⟨?_, ?_, ?_⟩
    · apply BitVec.eq_of_getLsbD_eq
      intro j hj
      have hb := congrArg (BitVec.getLsbD · (j + 12)) h
      simp only [BitVec.getLsbD_and, opcodeOf, BitVec.getLsbD_append, BitVec.getLsbD_extractLsb'] at hb ⊢
      interval_cases j <;> simpa using hb
    · apply BitVec.eq_of_getLsbD_eq
      intro j hj
      have hb := congrArg (BitVec.getLsbD · (j + 11)) h
      simp only [BitVec.getLsbD_and, immModeOf, BitVec.getLsbD_append, BitVec.getLsbD_extractLsb'] at hb ⊢
      interval_cases j; simpa using hb
    · apply BitVec.eq_of_getLsbD_eq
      intro j hj
      have hb := congrArg (BitVec.getLsbD · (j + 0)) h
      simp only [BitVec.getLsbD_and, modeOf, BitVec.getLsbD_append, BitVec.getLsbD_extractLsb'] at hb ⊢
      interval_cases j <;> simpa using hb
  · rintro ⟨rfl, rfl, rfl⟩
    apply BitVec.eq_of_getLsbD_eq
    intro j hj
    simp only [BitVec.getLsbD_and, opcodeOf, immModeOf, modeOf, BitVec.getLsbD_append, BitVec.getLsbD_extractLsb']
    interval_cases j <;> simp

/-- A table condition with the mask 0xF000, as fields. -/
theorem and_F000_iff (w v : Word) (hv : v &&& 0xF000#16 = v) : w &&& 0xF000#16 = v ↔ opcodeOf w = opcodeOf v := by
  have h := (and_F000_fields v (opcodeOf v)).2 rfl
  rw [hv] at h
  exact ⟨fun e => (and_F000_fields w _).1 (e.trans h), fun e => ((and_F000_fields w _).2 e).trans h.symm⟩

/-- A table condition with the mask 0xF800, as fields. -/
theorem and_F800_iff (w v : Word) (hv : v &&& 0xF800#16 = v) :
    w &&& 0xF800#16 = v ↔ opcodeOf w = opcodeOf v ∧ immModeOf w = immModeOf v := by
  have h := (and_F800_fields v (opcodeOf v) (immModeOf v)).2 ⟨rfl, rfl⟩
  rw [hv] at h
  exact ⟨fun e => (and_F800_fields w _ _).1 (e.trans h), fun e => ((and_F800_fields w _ _).2 e).trans h.symm⟩

/-- A table condition with the mask 0xF803, as fields. -/
theorem and_F803_iff (w v : Word) (hv : v &&& 0xF803#16 = v) :
    w &&& 0xF803#16 = v ↔ opcodeOf w = opcodeOf v ∧ immModeOf w = immModeOf v ∧ modeOf w = modeOf v := by
  have h := (and_F803_fields v (opcodeOf v) (immModeOf v) (modeOf v)).2 ⟨rfl, rfl, rfl⟩
  rw [hv] at h
  exact ⟨fun e => (and_F803_fields w _ _ _).1 (e.trans h), fun e => ((and_F803_fields w _ _ _).2 e).trans h.symm⟩

/-- The mode bits are the low two bits of `rm` (R52). -/
theorem modeOf_eq_rmOf (w : Word) : modeOf w = (rmOf w).extractLsb' 0 2 := by
  apply BitVec.eq_of_getLsbD_eq
  intro j hj
  simp only [modeOf, rmOf, BitVec.getLsbD_extractLsb']
  interval_cases j <;> simp

/-- The mode bits are the low two bits of `imm8` (R52). -/
theorem modeOf_eq_imm8Of (w : Word) : modeOf w = conditionBits (imm8Of w) := by
  apply BitVec.eq_of_getLsbD_eq
  intro j hj
  simp only [modeOf, imm8Of, conditionBits, BitVec.getLsbD_extractLsb']
  interval_cases j <;> simp

end Sys2Proof
end

