-- ==== Sys2Proof/Laws/State.lean ====
section
/-! SUPPORT. One lemma per field per update of the state, so that no later proof unfolds a record update. -/

namespace Sys2Proof.Machine.State

/-! ### setReg -/

@[simp] theorem setReg_regs (s : State) (r : Reg) (v : Word) : (s.setReg r v).regs = s.regs.set r.toNat v r.isLt := rfl
@[simp] theorem setReg_pc (s : State) (r : Reg) (v : Word) : (s.setReg r v).pc = s.pc := rfl
@[simp] theorem setReg_sp (s : State) (r : Reg) (v : Word) : (s.setReg r v).sp = s.sp := rfl
@[simp] theorem setReg_ir (s : State) (r : Reg) (v : Word) : (s.setReg r v).ir = s.ir := rfl
@[simp] theorem setReg_flags (s : State) (r : Reg) (v : Word) : (s.setReg r v).flags = s.flags := rfl
@[simp] theorem setReg_run (s : State) (r : Reg) (v : Word) : (s.setReg r v).run = s.run := rfl
@[simp] theorem setReg_imem (s : State) (r : Reg) (v : Word) : (s.setReg r v).imem = s.imem := rfl
@[simp] theorem setReg_dmem (s : State) (r : Reg) (v : Word) : (s.setReg r v).dmem = s.dmem := rfl
@[simp] theorem setReg_stk (s : State) (r : Reg) (v : Word) : (s.setReg r v).stk = s.stk := rfl
@[simp] theorem setReg_dumps (s : State) (r : Reg) (v : Word) : (s.setReg r v).dumps = s.dumps := rfl

/-! ### setFlags -/

@[simp] theorem setFlags_regs (s : State) (f : Flags) : (s.setFlags f).regs = s.regs := rfl
@[simp] theorem setFlags_pc (s : State) (f : Flags) : (s.setFlags f).pc = s.pc := rfl
@[simp] theorem setFlags_sp (s : State) (f : Flags) : (s.setFlags f).sp = s.sp := rfl
@[simp] theorem setFlags_ir (s : State) (f : Flags) : (s.setFlags f).ir = s.ir := rfl
@[simp] theorem setFlags_flags (s : State) (f : Flags) : (s.setFlags f).flags = f := rfl
@[simp] theorem setFlags_run (s : State) (f : Flags) : (s.setFlags f).run = s.run := rfl
@[simp] theorem setFlags_imem (s : State) (f : Flags) : (s.setFlags f).imem = s.imem := rfl
@[simp] theorem setFlags_dmem (s : State) (f : Flags) : (s.setFlags f).dmem = s.dmem := rfl
@[simp] theorem setFlags_stk (s : State) (f : Flags) : (s.setFlags f).stk = s.stk := rfl
@[simp] theorem setFlags_dumps (s : State) (f : Flags) : (s.setFlags f).dumps = s.dumps := rfl

/-! ### memWrite -/

@[simp] theorem memWrite_regs (s : State) (a : Word) (v : Byte) : (s.memWrite a v).regs = s.regs := rfl
@[simp] theorem memWrite_pc (s : State) (a : Word) (v : Byte) : (s.memWrite a v).pc = s.pc := rfl
@[simp] theorem memWrite_sp (s : State) (a : Word) (v : Byte) : (s.memWrite a v).sp = s.sp := rfl
@[simp] theorem memWrite_ir (s : State) (a : Word) (v : Byte) : (s.memWrite a v).ir = s.ir := rfl
@[simp] theorem memWrite_flags (s : State) (a : Word) (v : Byte) : (s.memWrite a v).flags = s.flags := rfl
@[simp] theorem memWrite_run (s : State) (a : Word) (v : Byte) : (s.memWrite a v).run = s.run := rfl
@[simp] theorem memWrite_imem (s : State) (a : Word) (v : Byte) : (s.memWrite a v).imem = s.imem := rfl
@[simp] theorem memWrite_dmem (s : State) (a : Word) (v : Byte) : (s.memWrite a v).dmem = s.dmem.write a.toNat v := rfl
@[simp] theorem memWrite_stk (s : State) (a : Word) (v : Byte) : (s.memWrite a v).stk = s.stk := rfl
@[simp] theorem memWrite_dumps (s : State) (a : Word) (v : Byte) : (s.memWrite a v).dumps = s.dumps := rfl

/-! ### afterFetch -/

@[simp] theorem afterFetch_regs (s : State) : (s.afterFetch).regs = s.regs := rfl
@[simp] theorem afterFetch_pc (s : State) : (s.afterFetch).pc = s.pc + 2#16 := rfl
@[simp] theorem afterFetch_sp (s : State) : (s.afterFetch).sp = s.sp := rfl
@[simp] theorem afterFetch_ir (s : State) : (s.afterFetch).ir = s.fetchWord := rfl
@[simp] theorem afterFetch_flags (s : State) : (s.afterFetch).flags = s.flags := rfl
@[simp] theorem afterFetch_run (s : State) : (s.afterFetch).run = s.run := rfl
@[simp] theorem afterFetch_imem (s : State) : (s.afterFetch).imem = s.imem := rfl
@[simp] theorem afterFetch_dmem (s : State) : (s.afterFetch).dmem = s.dmem := rfl
@[simp] theorem afterFetch_stk (s : State) : (s.afterFetch).stk = s.stk := rfl
@[simp] theorem afterFetch_dumps (s : State) : (s.afterFetch).dumps = s.dumps := rfl

/-! ### branchBy -/

@[simp] theorem branchBy_regs (s : State) (d : Word) : (s.branchBy d).regs = s.regs := rfl
@[simp] theorem branchBy_pc (s : State) (d : Word) : (s.branchBy d).pc = s.pc + d := rfl
@[simp] theorem branchBy_sp (s : State) (d : Word) : (s.branchBy d).sp = s.sp := rfl
@[simp] theorem branchBy_ir (s : State) (d : Word) : (s.branchBy d).ir = s.ir := rfl
@[simp] theorem branchBy_flags (s : State) (d : Word) : (s.branchBy d).flags = s.flags := rfl
@[simp] theorem branchBy_run (s : State) (d : Word) : (s.branchBy d).run = s.run := rfl
@[simp] theorem branchBy_imem (s : State) (d : Word) : (s.branchBy d).imem = s.imem := rfl
@[simp] theorem branchBy_dmem (s : State) (d : Word) : (s.branchBy d).dmem = s.dmem := rfl
@[simp] theorem branchBy_stk (s : State) (d : Word) : (s.branchBy d).stk = s.stk := rfl
@[simp] theorem branchBy_dumps (s : State) (d : Word) : (s.branchBy d).dumps = s.dumps := rfl

/-! ### pushByte -/

@[simp] theorem pushByte_regs (s : State) (v : Byte) : (s.pushByte v).regs = s.regs := rfl
@[simp] theorem pushByte_pc (s : State) (v : Byte) : (s.pushByte v).pc = s.pc := rfl
@[simp] theorem pushByte_sp (s : State) (v : Byte) : (s.pushByte v).sp = s.sp.down := rfl
@[simp] theorem pushByte_ir (s : State) (v : Byte) : (s.pushByte v).ir = s.ir := rfl
@[simp] theorem pushByte_flags (s : State) (v : Byte) : (s.pushByte v).flags = s.flags := rfl
@[simp] theorem pushByte_run (s : State) (v : Byte) : (s.pushByte v).run = s.run := rfl
@[simp] theorem pushByte_imem (s : State) (v : Byte) : (s.pushByte v).imem = s.imem := rfl
@[simp] theorem pushByte_dmem (s : State) (v : Byte) : (s.pushByte v).dmem = s.dmem := rfl
@[simp] theorem pushByte_stk (s : State) (v : Byte) : (s.pushByte v).stk = s.stk.write s.sp.down.index v := rfl
@[simp] theorem pushByte_dumps (s : State) (v : Byte) : (s.pushByte v).dumps = s.dumps := rfl

/-! ### dropByte -/

@[simp] theorem dropByte_regs (s : State) : (s.dropByte).regs = s.regs := rfl
@[simp] theorem dropByte_pc (s : State) : (s.dropByte).pc = s.pc := rfl
@[simp] theorem dropByte_sp (s : State) : (s.dropByte).sp = s.sp.up := rfl
@[simp] theorem dropByte_ir (s : State) : (s.dropByte).ir = s.ir := rfl
@[simp] theorem dropByte_flags (s : State) : (s.dropByte).flags = s.flags := rfl
@[simp] theorem dropByte_run (s : State) : (s.dropByte).run = s.run := rfl
@[simp] theorem dropByte_imem (s : State) : (s.dropByte).imem = s.imem := rfl
@[simp] theorem dropByte_dmem (s : State) : (s.dropByte).dmem = s.dmem := rfl
@[simp] theorem dropByte_stk (s : State) : (s.dropByte).stk = s.stk := rfl
@[simp] theorem dropByte_dumps (s : State) : (s.dropByte).dumps = s.dumps := rfl

/-! ### emitDump -/

@[simp] theorem emitDump_regs (s : State) : (s.emitDump).regs = s.regs := rfl
@[simp] theorem emitDump_pc (s : State) : (s.emitDump).pc = s.pc := rfl
@[simp] theorem emitDump_sp (s : State) : (s.emitDump).sp = s.sp := rfl
@[simp] theorem emitDump_ir (s : State) : (s.emitDump).ir = s.ir := rfl
@[simp] theorem emitDump_flags (s : State) : (s.emitDump).flags = s.flags := rfl
@[simp] theorem emitDump_run (s : State) : (s.emitDump).run = s.run := rfl
@[simp] theorem emitDump_imem (s : State) : (s.emitDump).imem = s.imem := rfl
@[simp] theorem emitDump_dmem (s : State) : (s.emitDump).dmem = s.dmem := rfl
@[simp] theorem emitDump_stk (s : State) : (s.emitDump).stk = s.stk := rfl
@[simp] theorem emitDump_dumps (s : State) : (s.emitDump).dumps = s.dumps + 1 := rfl

/-! ### haltWith -/

@[simp] theorem haltWith_regs (s : State) (c : HaltCause) : (s.haltWith c).regs = s.regs := rfl
@[simp] theorem haltWith_pc (s : State) (c : HaltCause) : (s.haltWith c).pc = s.pc := rfl
@[simp] theorem haltWith_sp (s : State) (c : HaltCause) : (s.haltWith c).sp = s.sp := rfl
@[simp] theorem haltWith_ir (s : State) (c : HaltCause) : (s.haltWith c).ir = s.ir := rfl
@[simp] theorem haltWith_flags (s : State) (c : HaltCause) : (s.haltWith c).flags = s.flags := rfl
@[simp] theorem haltWith_run (s : State) (c : HaltCause) : (s.haltWith c).run = .halted c := rfl
@[simp] theorem haltWith_imem (s : State) (c : HaltCause) : (s.haltWith c).imem = s.imem := rfl
@[simp] theorem haltWith_dmem (s : State) (c : HaltCause) : (s.haltWith c).dmem = s.dmem := rfl
@[simp] theorem haltWith_stk (s : State) (c : HaltCause) : (s.haltWith c).stk = s.stk := rfl
@[simp] theorem haltWith_dumps (s : State) (c : HaltCause) : (s.haltWith c).dumps = s.dumps + 1 := rfl

/-! ### writeResult -/

@[simp] theorem writeResult_regs (s : State) (d : Reg) (r : Word) (f : Flags) : (s.writeResult d r f).regs = s.regs.set d.toNat r d.isLt := rfl
@[simp] theorem writeResult_pc (s : State) (d : Reg) (r : Word) (f : Flags) : (s.writeResult d r f).pc = s.pc := rfl
@[simp] theorem writeResult_sp (s : State) (d : Reg) (r : Word) (f : Flags) : (s.writeResult d r f).sp = s.sp := rfl
@[simp] theorem writeResult_ir (s : State) (d : Reg) (r : Word) (f : Flags) : (s.writeResult d r f).ir = s.ir := rfl
@[simp] theorem writeResult_flags (s : State) (d : Reg) (r : Word) (f : Flags) : (s.writeResult d r f).flags = f := rfl
@[simp] theorem writeResult_run (s : State) (d : Reg) (r : Word) (f : Flags) : (s.writeResult d r f).run = s.run := rfl
@[simp] theorem writeResult_imem (s : State) (d : Reg) (r : Word) (f : Flags) : (s.writeResult d r f).imem = s.imem := rfl
@[simp] theorem writeResult_dmem (s : State) (d : Reg) (r : Word) (f : Flags) : (s.writeResult d r f).dmem = s.dmem := rfl
@[simp] theorem writeResult_stk (s : State) (d : Reg) (r : Word) (f : Flags) : (s.writeResult d r f).stk = s.stk := rfl
@[simp] theorem writeResult_dumps (s : State) (d : Reg) (r : Word) (f : Flags) : (s.writeResult d r f).dumps = s.dumps := rfl

/-! ### reads that an update leaves alone or changes -/

@[simp] theorem setReg_fetchByte (s : State) (r : Reg) (v : Word) (a : Word) : (s.setReg r v).fetchByte a = s.fetchByte a := rfl
@[simp] theorem setReg_fetchWord (s : State) (r : Reg) (v : Word) : (s.setReg r v).fetchWord = s.fetchWord := rfl
@[simp] theorem setReg_memRead (s : State) (r : Reg) (v : Word) (a : Word) : (s.setReg r v).memRead a = s.memRead a := rfl
@[simp] theorem setReg_stkRead (s : State) (r : Reg) (v : Word) (a : Word) : (s.setReg r v).stkRead a = s.stkRead a := rfl
@[simp] theorem setFlags_fetchByte (s : State) (f : Flags) (a : Word) : (s.setFlags f).fetchByte a = s.fetchByte a := rfl
@[simp] theorem setFlags_fetchWord (s : State) (f : Flags) : (s.setFlags f).fetchWord = s.fetchWord := rfl
@[simp] theorem setFlags_memRead (s : State) (f : Flags) (a : Word) : (s.setFlags f).memRead a = s.memRead a := rfl
@[simp] theorem setFlags_stkRead (s : State) (f : Flags) (a : Word) : (s.setFlags f).stkRead a = s.stkRead a := rfl
@[simp] theorem setFlags_reg (s : State) (f : Flags) (q : Reg) : (s.setFlags f).reg q = s.reg q := rfl
@[simp] theorem memWrite_fetchByte (s : State) (a : Word) (v : Byte) (a2 : Word) : (s.memWrite a v).fetchByte a2 = s.fetchByte a2 := rfl
@[simp] theorem memWrite_fetchWord (s : State) (a : Word) (v : Byte) : (s.memWrite a v).fetchWord = s.fetchWord := rfl
@[simp] theorem memWrite_stkRead (s : State) (a : Word) (v : Byte) (a2 : Word) : (s.memWrite a v).stkRead a2 = s.stkRead a2 := rfl
@[simp] theorem memWrite_reg (s : State) (a : Word) (v : Byte) (q : Reg) : (s.memWrite a v).reg q = s.reg q := rfl
@[simp] theorem afterFetch_fetchByte (s : State) (a : Word) : (s.afterFetch).fetchByte a = s.fetchByte a := rfl
@[simp] theorem afterFetch_memRead (s : State) (a : Word) : (s.afterFetch).memRead a = s.memRead a := rfl
@[simp] theorem afterFetch_stkRead (s : State) (a : Word) : (s.afterFetch).stkRead a = s.stkRead a := rfl
@[simp] theorem afterFetch_reg (s : State) (q : Reg) : (s.afterFetch).reg q = s.reg q := rfl
@[simp] theorem branchBy_fetchByte (s : State) (d : Word) (a : Word) : (s.branchBy d).fetchByte a = s.fetchByte a := rfl
@[simp] theorem branchBy_memRead (s : State) (d : Word) (a : Word) : (s.branchBy d).memRead a = s.memRead a := rfl
@[simp] theorem branchBy_stkRead (s : State) (d : Word) (a : Word) : (s.branchBy d).stkRead a = s.stkRead a := rfl
@[simp] theorem branchBy_reg (s : State) (d : Word) (q : Reg) : (s.branchBy d).reg q = s.reg q := rfl
@[simp] theorem pushByte_fetchByte (s : State) (v : Byte) (a : Word) : (s.pushByte v).fetchByte a = s.fetchByte a := rfl
@[simp] theorem pushByte_fetchWord (s : State) (v : Byte) : (s.pushByte v).fetchWord = s.fetchWord := rfl
@[simp] theorem pushByte_memRead (s : State) (v : Byte) (a : Word) : (s.pushByte v).memRead a = s.memRead a := rfl
@[simp] theorem pushByte_reg (s : State) (v : Byte) (q : Reg) : (s.pushByte v).reg q = s.reg q := rfl
@[simp] theorem dropByte_fetchByte (s : State) (a : Word) : (s.dropByte).fetchByte a = s.fetchByte a := rfl
@[simp] theorem dropByte_fetchWord (s : State) : (s.dropByte).fetchWord = s.fetchWord := rfl
@[simp] theorem dropByte_memRead (s : State) (a : Word) : (s.dropByte).memRead a = s.memRead a := rfl
@[simp] theorem dropByte_stkRead (s : State) (a : Word) : (s.dropByte).stkRead a = s.stkRead a := rfl
@[simp] theorem dropByte_reg (s : State) (q : Reg) : (s.dropByte).reg q = s.reg q := rfl
@[simp] theorem emitDump_fetchByte (s : State) (a : Word) : (s.emitDump).fetchByte a = s.fetchByte a := rfl
@[simp] theorem emitDump_fetchWord (s : State) : (s.emitDump).fetchWord = s.fetchWord := rfl
@[simp] theorem emitDump_memRead (s : State) (a : Word) : (s.emitDump).memRead a = s.memRead a := rfl
@[simp] theorem emitDump_stkRead (s : State) (a : Word) : (s.emitDump).stkRead a = s.stkRead a := rfl
@[simp] theorem emitDump_reg (s : State) (q : Reg) : (s.emitDump).reg q = s.reg q := rfl
@[simp] theorem haltWith_fetchByte (s : State) (c : HaltCause) (a : Word) : (s.haltWith c).fetchByte a = s.fetchByte a := rfl
@[simp] theorem haltWith_fetchWord (s : State) (c : HaltCause) : (s.haltWith c).fetchWord = s.fetchWord := rfl
@[simp] theorem haltWith_memRead (s : State) (c : HaltCause) (a : Word) : (s.haltWith c).memRead a = s.memRead a := rfl
@[simp] theorem haltWith_stkRead (s : State) (c : HaltCause) (a : Word) : (s.haltWith c).stkRead a = s.stkRead a := rfl
@[simp] theorem haltWith_reg (s : State) (c : HaltCause) (q : Reg) : (s.haltWith c).reg q = s.reg q := rfl
@[simp] theorem writeResult_fetchByte (s : State) (d : Reg) (r : Word) (f : Flags) (a : Word) : (s.writeResult d r f).fetchByte a = s.fetchByte a := rfl
@[simp] theorem writeResult_fetchWord (s : State) (d : Reg) (r : Word) (f : Flags) : (s.writeResult d r f).fetchWord = s.fetchWord := rfl
@[simp] theorem writeResult_memRead (s : State) (d : Reg) (r : Word) (f : Flags) (a : Word) : (s.writeResult d r f).memRead a = s.memRead a := rfl
@[simp] theorem writeResult_stkRead (s : State) (d : Reg) (r : Word) (f : Flags) (a : Word) : (s.writeResult d r f).stkRead a = s.stkRead a := rfl

/-- A register write, read back: the written register holds the value, every other register what it held (R10). -/
@[simp] theorem setReg_reg (s : State) (r : Reg) (v : Word) (q : Reg) :
    (s.setReg r v).reg q = if q = r then v else s.reg q := by
  simp only [State.reg, State.setReg, Vector.getElem_set]
  by_cases h : q = r
  · simp [h]
  · have hn : r.toNat ≠ q.toNat := fun e => h (BitVec.eq_of_toNat_eq e.symm)
    simp [h, hn]

@[simp] theorem writeResult_reg (s : State) (d : Reg) (r : Word) (f : Flags) (q : Reg) :
    (s.writeResult d r f).reg q = if q = d then r else s.reg q := setReg_reg s d r q

@[simp] theorem reset_reg (r : Reg) : State.reset.reg r = 0#16 := by
  simp [State.reg, State.reset]

/-- Registers and the other fields determine the state. -/
theorem regs_eq_of_reg_eq (s t : State) (hr : ∀ r, t.reg r = s.reg r) : t.regs = s.regs := by
  apply Vector.ext
  intro i hi
  have h := hr (BitVec.ofNat 3 i)
  have hi' : i % 8 = i := Nat.mod_eq_of_lt hi
  simpa [State.reg, BitVec.toNat_ofNat, hi'] using h

end Sys2Proof.Machine.State
end

