-- ==== Sys2Proof/Laws/Stack.lean ====
section
/-! SUPPORT. The stack pointer as an address, and stack bytes by stack address. -/

namespace Sys2Proof.Machine

/-- The one thing known of `STACK_BASE` (00_scope.md R4). -/
theorem stackBase_bounds : 16 ≤ Config.stackBase.toNat ∧ Config.stackBase.toNat ≤ 65535 := by
  have h := Config.stackBaseAboveSixteen.isLt
  simp only [Config.stackBase, BitVec.toNat_ofNat]
  omega

namespace StackPointer

/-- The address `STACK_BASE - depth`, with no wrap (10_state.md R18). -/
theorem addr_toNat (p : StackPointer) : p.addr.toNat = Config.stackBase.toNat - p.depth.val := by
  have hb := stackBase_bounds
  have hd := p.depth.isLt
  simp only [addr, BitVec.toNat_sub, BitVec.toNat_ofNat]
  omega

@[simp] theorem down_depth (p : StackPointer) : p.down.depth.val = min (p.depth.val + 1) 16 := rfl
@[simp] theorem up_depth (p : StackPointer) : p.up.depth.val = p.depth.val - 1 := rfl

theorem index_eq (p : StackPointer) : p.index = 16 - p.depth.val := rfl

theorem canPush_iff (p : StackPointer) : p.canPush = true ↔ p.depth.val ≤ 14 := by
  simp [canPush, Config.stackSize]

theorem canPop_iff (p : StackPointer) : p.canPop = true ↔ 2 ≤ p.depth.val := by
  simp [canPop]

theorem eq_of_depth {p q : StackPointer} (h : p.depth.val = q.depth.val) : p = q := by
  cases p; cases q; congr; exact Fin.ext h

end StackPointer

/-- The byte `k` places below `STACK_BASE` has index `16 - k`. -/
theorem stkRead_eq (s : State) (a : Word) (k : Nat) (h1 : 1 ≤ k) (h16 : k ≤ 16)
    (ha : a.toNat = Config.stackBase.toNat - k) : s.stkRead a = some (s.stk.read (16 - k)) := by
  have hb := stackBase_bounds
  have hr : inStackRegion a = true := by
    simp only [inStackRegion, Config.stackSize, Bool.and_eq_true, decide_eq_true_eq]
    omega
  have hi : a.toNat + Config.stackSize - Config.stackBase.toNat = 16 - k := by
    simp only [Config.stackSize]; omega
  rw [State.stkRead, if_pos hr, hi]

/-- An address outside the region has no byte. -/
theorem stkRead_none (s : State) (a : Word) (h : inStackRegion a = false) : s.stkRead a = none := by
  simp [State.stkRead, h]

/-- Two states whose stack memories agree on every index 0 .. 15 agree at every stack address. -/
theorem stkRead_congr (s t : State) (h : ∀ i, i < 16 → t.stk.read i = s.stk.read i) (a : Word) :
    t.stkRead a = s.stkRead a := by
  unfold State.stkRead
  split
  · rename_i hr
    simp only [inStackRegion, Config.stackSize, Bool.and_eq_true, decide_eq_true_eq] at hr
    rw [h]; simp only [Config.stackSize]; omega
  · rfl

/-- What one pushed byte leaves in stack memory. -/
theorem pushByte_stk_read (s : State) (v : Byte) (i : Nat) :
    (s.pushByte v).stk.read i = if i = s.sp.down.index then v else s.stk.read i := by
  simp

end Sys2Proof.Machine
end

