-- ==== Sys2Proof/Laws/Exec.lean ====
section
/-! SUPPORT. What each instruction answers, once: the equations later proofs cite instead of unfolding `exec`. -/

namespace Sys2Proof.Machine

/-! ### Instructions with one outcome -/

@[simp] theorem exec_nop (s : State) : exec (.nop) s = .next s.emitDump := rfl
@[simp] theorem exec_cmp (rn : Reg) (rm : Reg) (s : State) : exec (.cmp rn rm) s =
    .next (s.setFlags (flagsOfSub (s.reg rn) (s.reg rm))) := rfl
@[simp] theorem exec_movReg (rd : Reg) (rm : Reg) (s : State) : exec (.movReg rd rm) s = .next (s.setReg rd (s.reg rm)) := rfl
@[simp] theorem exec_movImm (rd : Reg) (imm8 : BitVec 8) (s : State) : exec (.movImm rd imm8) s = .next (s.setReg rd (zext16 imm8)) := rfl
@[simp] theorem exec_strReg (rd : Reg) (rn : Reg) (s : State) : exec (.strReg rd rn) s =
    .next (s.memWrite (strAddress rn s) (strByte rd s)) := rfl
@[simp] theorem exec_strImm (imm8 : BitVec 8) (s : State) : exec (.strImm imm8) s =
    .next (s.setReg (strImmDest imm8) (zext16 imm8)) := rfl
@[simp] theorem exec_ldr (rd : Reg) (rm : Reg) (s : State) : exec (.ldr rd rm) s =
    .next (s.setReg rd (zext16 (s.memRead (ldrAddress rm s)))) := rfl
@[simp] theorem exec_add (rd : Reg) (rn : Reg) (rm : Reg) (s : State) : exec (.add rd rn rm) s =
    .next (s.writeResult rd (s.reg rn + s.reg rm) (flagsOfAdd (s.reg rn) (s.reg rm))) := rfl
@[simp] theorem exec_sub (rd : Reg) (rn : Reg) (rm : Reg) (s : State) : exec (.sub rd rn rm) s =
    .next (s.writeResult rd (s.reg rn - s.reg rm) (flagsOfSub (s.reg rn) (s.reg rm))) := rfl
@[simp] theorem exec_mul (rd : Reg) (rn : Reg) (rm : Reg) (s : State) : exec (.mul rd rn rm) s =
    .next (s.writeResult rd (s.reg rn * s.reg rm) (flagsOfResult (s.reg rn * s.reg rm))) := rfl
@[simp] theorem exec_andR (rd : Reg) (rn : Reg) (rm : Reg) (s : State) : exec (.andR rd rn rm) s =
    .next (s.writeResult rd (s.reg rn &&& s.reg rm) (flagsOfResult (s.reg rn &&& s.reg rm))) := rfl
@[simp] theorem exec_orr (rd : Reg) (rn : Reg) (rm : Reg) (s : State) : exec (.orr rd rn rm) s =
    .next (s.writeResult rd (s.reg rn ||| s.reg rm) (flagsOfResult (s.reg rn ||| s.reg rm))) := rfl
@[simp] theorem exec_notR (rd : Reg) (rn : Reg) (s : State) : exec (.notR rd rn) s =
    .next (s.writeResult rd (~~~ s.reg rn) (flagsOfResult (~~~ s.reg rn))) := rfl
@[simp] theorem exec_xorR (rd : Reg) (rn : Reg) (rm : Reg) (s : State) : exec (.xorR rd rn rm) s =
    .next (s.writeResult rd (s.reg rn ^^^ s.reg rm) (flagsOfResult (s.reg rn ^^^ s.reg rm))) := rfl
@[simp] theorem exec_shr (rd : Reg) (rn : Reg) (s : State) : exec (.shr rd rn) s =
    .next (s.writeResult rd (shiftRightOne (s.reg rn)) (flagsOfResult (shiftRightOne (s.reg rn)))) := rfl
@[simp] theorem exec_shl (rd : Reg) (rn : Reg) (s : State) : exec (.shl rd rn) s =
    .next (s.writeResult rd (shiftLeftOne (s.reg rn)) (flagsOfResult (shiftLeftOne (s.reg rn)))) := rfl
@[simp] theorem exec_ror (rd : Reg) (rn : Reg) (s : State) : exec (.ror rd rn) s =
    .next (s.setReg rd (rotateRightOne (s.reg rn))) := rfl
@[simp] theorem exec_rol (rd : Reg) (rn : Reg) (s : State) : exec (.rol rd rn) s =
    .next (s.setReg rd (rotateLeftOne (s.reg rn))) := rfl
@[simp] theorem exec_halt (s : State) : exec (.halt) s = .next (s.haltWith .clean) := rfl
@[simp] theorem exec_undImm0 (s : State) : exec (.undImm0) s = .next s := rfl
@[simp] theorem exec_undMode0 (s : State) : exec (.undMode0) s = .next s := rfl
@[simp] theorem exec_undMode1 (s : State) : exec (.undMode1) s = .next s := rfl
@[simp] theorem exec_undMode2 (s : State) : exec (.undMode2) s = .next s := rfl

/-! ### PUSH and POP -/

/-- A PUSH that finds room pushes the low byte, then the high byte. -/
theorem exec_push_ok (rn : Reg) (s : State) (h : s.sp.depth.val ≤ 14) : exec (.push rn) s =
    .next ((s.pushByte (lowByte (s.reg rn))).pushByte (highByte (s.reg rn))) :=
  if_pos ((StackPointer.canPush_iff s.sp).2 h)

/-- A PUSH that finds no room takes the StackOverflow fault. -/
theorem exec_push_fault (rn : Reg) (s : State) (h : 14 < s.sp.depth.val) :
    exec (.push rn) s = .next (s.haltWith .stackOverflow) :=
  if_neg (fun hc => by have := (StackPointer.canPush_iff s.sp).1 hc; omega)

/-- A POP that finds two bytes loads the high byte, then the low byte. -/
theorem exec_pop_ok (rd : Reg) (s : State) (h : 2 ≤ s.sp.depth.val) : exec (.pop rd) s =
    .next (s.dropByte.dropByte.setReg rd (joinBytes s.topByte s.dropByte.topByte)) :=
  if_pos ((StackPointer.canPop_iff s.sp).2 h)

/-- A POP that does not takes the StackUnderflow fault. -/
theorem exec_pop_fault (rd : Reg) (s : State) (h : s.sp.depth.val < 2) :
    exec (.pop rd) s = .next (s.haltWith .stackUnderflow) :=
  if_neg (fun hc => by have := (StackPointer.canPop_iff s.sp).1 hc; omega)

/-- Everything a PUSH can do. -/
theorem exec_push_cases {rn : Reg} {s t : State} (h : exec (.push rn) s = .next t) :
    (s.sp.depth.val ≤ 14 ∧ t = (s.pushByte (lowByte (s.reg rn))).pushByte (highByte (s.reg rn))) ∨
    (14 < s.sp.depth.val ∧ t = s.haltWith .stackOverflow) := by
  rcases Nat.lt_or_ge 14 s.sp.depth.val with hd | hd
  · rw [exec_push_fault rn s hd] at h; exact .inr ⟨hd, (Host.Outcome.next.inj h).symm⟩
  · rw [exec_push_ok rn s hd] at h; exact .inl ⟨hd, (Host.Outcome.next.inj h).symm⟩

/-- Everything a POP can do. -/
theorem exec_pop_cases {rd : Reg} {s t : State} (h : exec (.pop rd) s = .next t) :
    (2 ≤ s.sp.depth.val ∧ t = s.dropByte.dropByte.setReg rd (joinBytes s.topByte s.dropByte.topByte)) ∨
    (s.sp.depth.val < 2 ∧ t = s.haltWith .stackUnderflow) := by
  rcases Nat.lt_or_ge s.sp.depth.val 2 with hd | hd
  · rw [exec_pop_fault rd s hd] at h; exact .inr ⟨hd, (Host.Outcome.next.inj h).symm⟩
  · rw [exec_pop_ok rd s hd] at h; exact .inl ⟨hd, (Host.Outcome.next.inj h).symm⟩

/-! ### The branch family -/

/-- Everything a branch can do. -/
theorem branchIf_eq (c : Bool) (imm8 : BitVec 8) (s : State) :
    branchIf c imm8 s = .next (if c then s.branchBy (zext16 imm8) else s) := by
  cases c <;> rfl

@[simp] theorem exec_jmp (imm8 : BitVec 8) (s : State) : exec (.jmp imm8) s = .next (s.branchBy (zext16 imm8)) := rfl
theorem exec_jeq (imm8 : BitVec 8) (s : State) : exec (.jeq imm8) s =
    .next (if s.flags.z then s.branchBy (zext16 imm8) else s) := branchIf_eq ..
theorem exec_jlt (imm8 : BitVec 8) (s : State) : exec (.jlt imm8) s =
    .next (if s.flags.s && !s.flags.z then s.branchBy (zext16 imm8) else s) := branchIf_eq ..
theorem exec_jgt (imm8 : BitVec 8) (s : State) : exec (.jgt imm8) s =
    .next (if !s.flags.z && !s.flags.s then s.branchBy (zext16 imm8) else s) := branchIf_eq ..

/-! ### The step -/

/-- A running machine executes the decoded word at the state the fetch left (10_state.md R27). -/
theorem step_running {s : State} (h : s.run = .running) : step s = exec (decodeWord s.fetchWord) s.afterFetch := by
  simp [step, h]

/-- A halted machine stays as it is (10_state.md R28). -/
theorem step_halted {s : State} {c : HaltCause} (h : s.run = .halted c) : step s = .next s := by
  simp [step, h]

/-- The next state of a step, if it answers one: the same when halted, the instruction's when running. -/
theorem step_cases {s t : State} (h : step s = .next t) :
    (s.run = .running ∧ exec (decodeWord s.fetchWord) s.afterFetch = .next t) ∨ (s.run ≠ .running ∧ t = s) := by
  cases hr : s.run with
  | running => exact .inl ⟨rfl, by rw [← step_running hr]; exact h⟩
  | halted c => rw [step_halted hr] at h; exact .inr ⟨by simp, (Host.Outcome.next.inj h).symm⟩

/-- What `withFetchWord` stores is what the next step fetches. -/
theorem withFetchWord_fetchWord (s : State) (n w : Nat) :
    (s.withFetchWord n w).fetchWord = BitVec.ofNat 16 (w % 2 ^ n) := by
  have hne : s.pc.toNat ≠ (s.pc.toNat + 1) % 65536 := by
    have := s.pc.isLt
    omega
  simp [State.fetchWord, State.fetchByte, State.withFetchWord, Memory.read_storeWord, hne]

end Sys2Proof.Machine
end

