-- ==== Sys2Proof/Laws/PerInstr.lean ====
section
/-! SUPPORT. Per-instruction families (LAWS.json). -/

/-- EncodeFits: the canonical word of a well-formed instruction satisfies the mask and value of its own row of the opcode
table, and has a 0 at every bit the row ignores (30_encoding.md R54, R56, R60). -/
def Sys2Proof.Laws.EncodeFits.Statement (i : Sys2Proof.Instr) : Prop :=
  i.wf = true → ∀ row, Sys2Proof.opcodeRows[i.row]? = some row →
    Sys2Proof.encode i &&& row.mask = row.value ∧ Sys2Proof.encode i &&& row.used = Sys2Proof.encode i

namespace Sys2Proof.Laws.EncodeFits

/-- A word is under a mask when each of its bits is. -/
theorem and_eq_of_bits {w m v : Word} (h : ∀ i, i < 16 → (w.getLsbD i && m.getLsbD i) = v.getLsbD i) : w &&& m = v := by
  apply BitVec.eq_of_getLsbD_eq
  intro i hi
  rw [BitVec.getLsbD_and]; exact h i hi

theorem nop : Statement (.nop) := by
  intro hw row hr
  obtain rfl : _ = row := Option.some.inj hr
  constructor <;> apply and_eq_of_bits <;> intro i hi <;>
    simp only [encode, formatS, BitVec.getLsbD_append] <;> interval_cases i <;> simp_all

theorem push (rn : Reg) : Statement (.push rn) := by
  intro hw row hr
  obtain rfl : _ = row := Option.some.inj hr
  constructor <;> apply and_eq_of_bits <;> intro i hi <;>
    simp only [encode, formatS, BitVec.getLsbD_append] <;> interval_cases i <;> simp_all

theorem pop (rd : Reg) : Statement (.pop rd) := by
  intro hw row hr
  obtain rfl : _ = row := Option.some.inj hr
  constructor <;> apply and_eq_of_bits <;> intro i hi <;>
    simp only [encode, formatS, BitVec.getLsbD_append] <;> interval_cases i <;> simp_all

theorem cmp (rn rm : Reg) : Statement (.cmp rn rm) := by
  intro hw row hr
  obtain rfl : _ = row := Option.some.inj hr
  constructor <;> apply and_eq_of_bits <;> intro i hi <;>
    simp only [encode, formatS, BitVec.getLsbD_append] <;> interval_cases i <;> simp_all

theorem jmp (imm8 : BitVec 8) : Statement (.jmp imm8) := by
  intro hw row hr
  obtain rfl : _ = row := Option.some.inj hr
  have hc : conditionBits imm8 = 0#2 := by simpa [Instr.wf] using hw
  have h0 := congrArg (BitVec.getLsbD · 0) hc
  have h1 := congrArg (BitVec.getLsbD · 1) hc
  simp only [conditionBits, BitVec.getLsbD_extractLsb'] at h0 h1
  constructor <;> apply and_eq_of_bits <;> intro i hi <;>
    simp only [encode, formatB, BitVec.getLsbD_append] <;> interval_cases i <;> simp_all

theorem jeq (imm8 : BitVec 8) : Statement (.jeq imm8) := by
  intro hw row hr
  obtain rfl : _ = row := Option.some.inj hr
  have hc : conditionBits imm8 = 1#2 := by simpa [Instr.wf] using hw
  have h0 := congrArg (BitVec.getLsbD · 0) hc
  have h1 := congrArg (BitVec.getLsbD · 1) hc
  simp only [conditionBits, BitVec.getLsbD_extractLsb'] at h0 h1
  constructor <;> apply and_eq_of_bits <;> intro i hi <;>
    simp only [encode, formatB, BitVec.getLsbD_append] <;> interval_cases i <;> simp_all

theorem jlt (imm8 : BitVec 8) : Statement (.jlt imm8) := by
  intro hw row hr
  obtain rfl : _ = row := Option.some.inj hr
  have hc : conditionBits imm8 = 2#2 := by simpa [Instr.wf] using hw
  have h0 := congrArg (BitVec.getLsbD · 0) hc
  have h1 := congrArg (BitVec.getLsbD · 1) hc
  simp only [conditionBits, BitVec.getLsbD_extractLsb'] at h0 h1
  constructor <;> apply and_eq_of_bits <;> intro i hi <;>
    simp only [encode, formatB, BitVec.getLsbD_append] <;> interval_cases i <;> simp_all

theorem jgt (imm8 : BitVec 8) : Statement (.jgt imm8) := by
  intro hw row hr
  obtain rfl : _ = row := Option.some.inj hr
  have hc : conditionBits imm8 = 3#2 := by simpa [Instr.wf] using hw
  have h0 := congrArg (BitVec.getLsbD · 0) hc
  have h1 := congrArg (BitVec.getLsbD · 1) hc
  simp only [conditionBits, BitVec.getLsbD_extractLsb'] at h0 h1
  constructor <;> apply and_eq_of_bits <;> intro i hi <;>
    simp only [encode, formatB, BitVec.getLsbD_append] <;> interval_cases i <;> simp_all

theorem movReg (rd rm : Reg) : Statement (.movReg rd rm) := by
  intro hw row hr
  obtain rfl : _ = row := Option.some.inj hr
  constructor <;> apply and_eq_of_bits <;> intro i hi <;>
    simp only [encode, formatR, BitVec.getLsbD_append] <;> interval_cases i <;> simp_all

theorem movImm (rd : Reg) (imm8 : BitVec 8) : Statement (.movImm rd imm8) := by
  intro hw row hr
  obtain rfl : _ = row := Option.some.inj hr
  constructor <;> apply and_eq_of_bits <;> intro i hi <;>
    simp only [encode, formatI, BitVec.getLsbD_append] <;> interval_cases i <;> simp_all

theorem strReg (rd rn : Reg) : Statement (.strReg rd rn) := by
  intro hw row hr
  obtain rfl : _ = row := Option.some.inj hr
  constructor <;> apply and_eq_of_bits <;> intro i hi <;>
    simp only [encode, formatR, BitVec.getLsbD_append] <;> interval_cases i <;> simp_all

theorem strImm (imm8 : BitVec 8) : Statement (.strImm imm8) := by
  intro hw row hr
  obtain rfl : _ = row := Option.some.inj hr
  constructor <;> apply and_eq_of_bits <;> intro i hi <;>
    simp only [encode, formatI, BitVec.getLsbD_append] <;> interval_cases i <;> simp_all

theorem ldr (rd rm : Reg) : Statement (.ldr rd rm) := by
  intro hw row hr
  obtain rfl : _ = row := Option.some.inj hr
  constructor <;> apply and_eq_of_bits <;> intro i hi <;>
    simp only [encode, formatR, BitVec.getLsbD_append] <;> interval_cases i <;> simp_all

theorem add (rd rn rm : Reg) : Statement (.add rd rn rm) := by
  intro hw row hr
  obtain rfl : _ = row := Option.some.inj hr
  constructor <;> apply and_eq_of_bits <;> intro i hi <;>
    simp only [encode, formatR, BitVec.getLsbD_append] <;> interval_cases i <;> simp_all

theorem sub (rd rn rm : Reg) : Statement (.sub rd rn rm) := by
  intro hw row hr
  obtain rfl : _ = row := Option.some.inj hr
  constructor <;> apply and_eq_of_bits <;> intro i hi <;>
    simp only [encode, formatR, BitVec.getLsbD_append] <;> interval_cases i <;> simp_all

theorem mul (rd rn rm : Reg) : Statement (.mul rd rn rm) := by
  intro hw row hr
  obtain rfl : _ = row := Option.some.inj hr
  constructor <;> apply and_eq_of_bits <;> intro i hi <;>
    simp only [encode, formatR, BitVec.getLsbD_append] <;> interval_cases i <;> simp_all

theorem andR (rd rn rm : Reg) : Statement (.andR rd rn rm) := by
  intro hw row hr
  obtain rfl : _ = row := Option.some.inj hr
  constructor <;> apply and_eq_of_bits <;> intro i hi <;>
    simp only [encode, formatR, BitVec.getLsbD_append] <;> interval_cases i <;> simp_all

theorem orr (rd rn rm : Reg) : Statement (.orr rd rn rm) := by
  intro hw row hr
  obtain rfl : _ = row := Option.some.inj hr
  constructor <;> apply and_eq_of_bits <;> intro i hi <;>
    simp only [encode, formatR, BitVec.getLsbD_append] <;> interval_cases i <;> simp_all

theorem notR (rd rn : Reg) : Statement (.notR rd rn) := by
  intro hw row hr
  obtain rfl : _ = row := Option.some.inj hr
  constructor <;> apply and_eq_of_bits <;> intro i hi <;>
    simp only [encode, formatR, BitVec.getLsbD_append] <;> interval_cases i <;> simp_all

theorem xorR (rd rn rm : Reg) : Statement (.xorR rd rn rm) := by
  intro hw row hr
  obtain rfl : _ = row := Option.some.inj hr
  constructor <;> apply and_eq_of_bits <;> intro i hi <;>
    simp only [encode, formatR, BitVec.getLsbD_append] <;> interval_cases i <;> simp_all

theorem shr (rd rn : Reg) : Statement (.shr rd rn) := by
  intro hw row hr
  obtain rfl : _ = row := Option.some.inj hr
  constructor <;> apply and_eq_of_bits <;> intro i hi <;>
    simp only [encode, formatR, BitVec.getLsbD_append] <;> interval_cases i <;> simp_all

theorem shl (rd rn : Reg) : Statement (.shl rd rn) := by
  intro hw row hr
  obtain rfl : _ = row := Option.some.inj hr
  constructor <;> apply and_eq_of_bits <;> intro i hi <;>
    simp only [encode, formatR, BitVec.getLsbD_append] <;> interval_cases i <;> simp_all

theorem ror (rd rn : Reg) : Statement (.ror rd rn) := by
  intro hw row hr
  obtain rfl : _ = row := Option.some.inj hr
  constructor <;> apply and_eq_of_bits <;> intro i hi <;>
    simp only [encode, formatR, BitVec.getLsbD_append] <;> interval_cases i <;> simp_all

theorem rol (rd rn : Reg) : Statement (.rol rd rn) := by
  intro hw row hr
  obtain rfl : _ = row := Option.some.inj hr
  constructor <;> apply and_eq_of_bits <;> intro i hi <;>
    simp only [encode, formatR, BitVec.getLsbD_append] <;> interval_cases i <;> simp_all

theorem halt : Statement (.halt) := by
  intro hw row hr
  obtain rfl : _ = row := Option.some.inj hr
  constructor <;> apply and_eq_of_bits <;> intro i hi <;>
    simp only [encode, formatH, BitVec.getLsbD_append] <;> interval_cases i <;> simp_all

theorem undImm0 : Statement (.undImm0) := by
  intro hw row hr
  obtain rfl : _ = row := Option.some.inj hr
  constructor <;> apply and_eq_of_bits <;> intro i hi <;>
    simp only [encode, formatH, BitVec.getLsbD_append] <;> interval_cases i <;> simp_all

theorem undMode0 : Statement (.undMode0) := by
  intro hw row hr
  obtain rfl : _ = row := Option.some.inj hr
  constructor <;> apply and_eq_of_bits <;> intro i hi <;>
    simp only [encode, formatH, BitVec.getLsbD_append] <;> interval_cases i <;> simp_all

theorem undMode1 : Statement (.undMode1) := by
  intro hw row hr
  obtain rfl : _ = row := Option.some.inj hr
  constructor <;> apply and_eq_of_bits <;> intro i hi <;>
    simp only [encode, formatH, BitVec.getLsbD_append] <;> interval_cases i <;> simp_all

theorem undMode2 : Statement (.undMode2) := by
  intro hw row hr
  obtain rfl : _ = row := Option.some.inj hr
  constructor <;> apply and_eq_of_bits <;> intro i hi <;>
    simp only [encode, formatH, BitVec.getLsbD_append] <;> interval_cases i <;> simp_all

end Sys2Proof.Laws.EncodeFits
end

