-- ==== Sys2Proof/Tests/Slice0.lean ====
section
/-! SUPPORT. The model's own tests: ill-formed terms refused; words written out from 30_encoding.md R51, R54, R62 decoded; one step
per instruction from the vectors of 95_test_vectors.md (named in each comment; computed there from the rules, not by this model);
and for each obligation that has hypotheses a witness that meets them. -/

namespace Sys2Proof.Tests
open Sys2Proof Sys2Proof.Machine

/-! ## Well-formedness: each check refuses an ill-formed term (R52) -/

theorem test_wf_refuses_cmp_with_r1 : (Instr.cmp 0 1).wf = false := by decide
theorem test_wf_refuses_jmp_plus_1 : (Instr.jmp 1).wf = false := by decide
theorem test_wf_refuses_jeq_plus_4 : (Instr.jeq 4).wf = false := by decide
theorem test_wf_refuses_jlt_plus_3 : (Instr.jlt 3).wf = false := by decide
theorem test_wf_refuses_jgt_plus_2 : (Instr.jgt 2).wf = false := by decide
theorem test_wf_admits_the_ends_of_the_ranges :
    (Instr.cmp 7 3).wf = true ∧ (Instr.cmp 0 7).wf = true ∧ (Instr.jmp 252).wf = true ∧ (Instr.jeq 253).wf = true ∧
    (Instr.jlt 254).wf = true ∧ (Instr.jgt 255).wf = true := by decide

/-! ## Decoding: bit 15 first, fields as in R53 -/

theorem test_decode_special :
    decodeWord 0b0000000000000000 = .nop ∧ decodeWord 0b0000000001000001 = .push 2 ∧
    decodeWord 0b0000010000000010 = .pop 4 ∧ decodeWord 0b0000000000100011 = .cmp 1 3 ∧
    decodeWord 0b0000000000100111 = .cmp 1 7 := by decide
theorem test_decode_branch :
    decodeWord 0b0000100000000100 = .jmp 4 ∧ decodeWord 0b0000100000000101 = .jeq 5 ∧
    decodeWord 0b0000100000000010 = .jlt 2 ∧ decodeWord 0b0000100000000111 = .jgt 7 := by decide
theorem test_decode_move_load_store :
    decodeWord 0b0001001000000011 = .movReg 2 3 ∧ decodeWord 0b0001100100000101 = .movImm 1 5 ∧
    decodeWord 0b0010001000100000 = .strReg 2 1 ∧ decodeWord 0b0010100000100101 = .strImm 0x25 ∧
    decodeWord 0b0011001100000001 = .ldr 3 1 := by decide
theorem test_decode_arithmetic :
    decodeWord 0b0100000000100010 = .add 0 1 2 ∧ decodeWord 0b0101001101000001 = .sub 3 2 1 ∧
    decodeWord 0b0110001001000010 = .mul 2 2 2 := by decide
theorem test_decode_logic :
    decodeWord 0b0111000000100010 = .andR 0 1 2 ∧ decodeWord 0b1000000000100010 = .orr 0 1 2 ∧
    decodeWord 0b1001010010100000 = .notR 4 5 ∧ decodeWord 0b1010010110100101 = .xorR 5 5 5 := by decide
theorem test_decode_shift_rotate :
    decodeWord 0b1011000000100000 = .shr 0 1 ∧ decodeWord 0b1100000000100000 = .shl 0 1 ∧
    decodeWord 0b1101000000100000 = .ror 0 1 ∧ decodeWord 0b1110011011000000 = .rol 6 6 := by decide
theorem test_decode_system :
    decodeWord 0b1111100000000011 = .halt ∧ decodeWord 0xFFFF = .halt ∧ decodeWord 0b1111000000000000 = .undImm0 ∧
    decodeWord 0xF7FF = .undImm0 ∧ decodeWord 0b1111100000000000 = .undMode0 ∧
    decodeWord 0b1111100000000001 = .undMode1 ∧ decodeWord 0b1111100000000010 = .undMode2 := by decide
/-- Vectors M5, M17, A10, K7, Y7: ignored bits set. -/
theorem test_decode_ignores_bits :
    decodeWord 0x12E3 = .movReg 2 3 ∧ decodeWord 0x3B01 = .ldr 3 1 ∧ decodeWord 0x483A = .add 0 1 2 ∧
    decodeWord 0x077D = .push 3 ∧ decodeWord 0x0004 = .nop := by decide
theorem test_decode_bytes_low_byte_first : decode [0x05, 0x19, 0xAA] = .ok (.movImm 1 5) [0xAA] := by decide
theorem test_decode_refuses_a_lone_byte :
    decode [0x05] = .rejected .truncated ∧ decode [] = .rejected .truncated := by decide
theorem test_encode_worked_words :
    encode (.movReg 2 3) = 0x1203 ∧ encode (.strReg 2 1) = 0x2220 ∧ encode (.mul 2 2 2) = 0x6242 ∧
    encode (.notR 4 5) = 0x94A0 ∧ encode (.pop 4) = 0x0402 ∧ encode (.cmp 1 7) = 0x0027 ∧ encode .halt = 0xF803 := by decide
theorem test_decodeTableWord :
    decodeTableWord 16 0x1203 = some (.movReg 2 3) ∧ decodeTableWord 16 0xF803 = some .halt ∧
    decodeTableWord 17 0 = none := by decide

/-! ## One step per instruction -/

/-- A running machine with the word to be fetched at `pc`, the registers listed, all flags set to `f`. -/
def mk (w pc : Nat) (rs : List (Reg × Word)) (f : Bool := false) : State :=
  (rs.foldl (fun (s : State) r => s.setReg r.1 r.2)
    { State.reset with pc := BitVec.ofNat 16 pc, flags := ⟨f, f, f, f⟩ }).withFetchWord 16 w

/-- What is seen of the state after one step. -/
def look {α : Type} (view : State → α) (s : State) : Option α :=
  match step s with
  | .next t => some (view t)
  | .fault _ => none
  | .refused _ => none

/-- Register 0 and the flags. -/
def r0f (t : State) : Word × Flags := (t.reg 0, t.flags)

/-- Vector M1. -/
theorem test_movReg : look (fun t => (t.reg 2, t.reg 3, t.pc)) (mk 0x1203 0 [(3, 0xBEEF)]) = some (0xBEEF, 0xBEEF, 2) := by decide
/-- Vector M3. -/
theorem test_movImm_zero_extends : look (fun t => (t.reg 7, t.flags.z)) (mk 0x1FFF 0 [(7, 0xABCD)]) = some (0xFF, false) := by decide
/-- Vector M6. -/
theorem test_strReg_one_byte :
    look State.dmem ((mk 0x2220 0 [(1, 0x40), (2, 0x7239)]).memWrite 0x41 0x55) = some [(0x40, 0x39), (0x41, 0x55)] := by decide
/-- Vector M11. -/
theorem test_strImm_ignores_rd :
    look (fun t => (t.reg 0, t.reg 7, t.dmem)) (mk 0x2F05 0 [(0, 0xAAAA), (7, 0xAAAA)]) = some (5, 0xAAAA, []) := by decide
/-- Vector M13. -/
theorem test_strImm_destination : look (fun t => t.reg 4) (mk 0x289F 0 []) = some 0x9F := by decide
/-- Vector M14. -/
theorem test_ldr_zero_extends :
    look (fun t => t.reg 3) ((mk 0x3301 0 [(1, 0x40), (3, 0xFFFF)]).memWrite 0x40 0x80) = some 0x80 := by decide
/-- Vector M15. -/
theorem test_ldr_same_register : look (fun t => t.reg 1) ((mk 0x3101 0 [(1, 0x40)]).memWrite 0x40 0x99) = some 0x99 := by decide
/-- Vector A4. -/
theorem test_add_both_overflows :
    look r0f (mk 0x4022 0 [(1, 0x8000), (2, 0x8000)]) = some (0, ⟨true, false, true, true⟩) := by decide
/-- Vector A9. -/
theorem test_add_same_register :
    look (fun t => (t.reg 1, t.flags)) (mk 0x4121 0 [(1, 0x9000)]) = some (0x2000, ⟨false, false, true, true⟩) := by decide
/-- Vector B4. -/
theorem test_sub_signed_overflow :
    look r0f (mk 0x5022 0 [(1, 0x8000), (2, 1)]) = some (0x7FFF, ⟨false, false, false, true⟩) := by decide
/-- Vector B1. -/
theorem test_sub_borrow : look r0f (mk 0x5022 0 [(1, 3), (2, 5)]) = some (0xFFFE, ⟨false, true, true, false⟩) := by decide
/-- Vector Q2. -/
theorem test_mul_high_half_lost :
    look r0f (mk 0x6022 0 [(1, 0x100), (2, 0x100)] true) = some (0, ⟨true, false, false, false⟩) := by decide
/-- Vector Q1. -/
theorem test_mul : look r0f (mk 0x6022 0 [(1, 0xAB), (2, 0xAB)] true) = some (0x7239, ⟨false, false, false, false⟩) := by decide
/-- Vector L1. -/
theorem test_and : look r0f (mk 0x7022 0 [(1, 0xFF0F), (2, 0x8F01)] true) = some (0x8F01, ⟨false, true, false, false⟩) := by decide
/-- Vector L4. -/
theorem test_orr : look r0f (mk 0x8022 0 [(1, 0xF0), (2, 0xF00)] true) = some (0xFF0, ⟨false, false, false, false⟩) := by decide
/-- Vector L10. -/
theorem test_not : look r0f (mk 0x9020 0 [(1, 0xFF)] true) = some (0xFF00, ⟨false, true, false, false⟩) := by decide
/-- Vector L9. -/
theorem test_xor : look r0f (mk 0xA022 0 [(1, 0xFFFF), (2, 0x7FFF)] true) = some (0x8000, ⟨false, true, false, false⟩) := by decide
/-- Vector H1. -/
theorem test_shr : look r0f (mk 0xB020 0 [(1, 0x8003)] true) = some (0x4001, ⟨false, false, false, false⟩) := by decide
/-- Vector H7. -/
theorem test_shl : look r0f (mk 0xC020 0 [(1, 0x8000)] true) = some (0, ⟨true, false, false, false⟩) := by decide
/-- Vector T2, with all flags set. -/
theorem test_ror : look r0f (mk 0xD020 0 [(1, 0x8001)] true) = some (0xC000, ⟨true, true, true, true⟩) := by decide
/-- Vector T7, with all flags set. -/
theorem test_rol : look r0f (mk 0xE020 0 [(1, 0x8001)] true) = some (3, ⟨true, true, true, true⟩) := by decide
/-- Vector K1: `B - 2` is index 14, `B - 1` index 15. -/
theorem test_push : look (fun t => (t.sp.depth, t.stk, t.run)) (mk 0x0041 0 [(2, 0x7239)]) =
    some (2, [(14, 0x72), (15, 0x39)], .running) := by decide
/-- Vector K3. -/
theorem test_push_overflow : look (fun t => (t.sp.depth, t.stk, t.run, t.pc, t.dumps))
    { mk 0x0041 0 [(2, 0x7239)] with sp := ⟨16⟩ } = some (16, [], .halted .stackOverflow, 2, 1) := by decide
/-- Vector K4. -/
theorem test_pop : look (fun t => (t.reg 4, t.sp.depth, t.stk))
    { mk 0x0402 0 [] with sp := ⟨2⟩, stk := [(14, 0x72), (15, 0x39)] } =
      some (0x7239, 0, [(14, 0x72), (15, 0x39)]) := by decide
/-- Vector K5. -/
theorem test_pop_underflow : look (fun t => (t.reg 4, t.sp.depth, t.run, t.pc, t.dumps)) (mk 0x0402 0 [(4, 0xDEAD)]) =
    some (0xDEAD, 0, .halted .stackUnderflow, 2, 1) := by decide
/-- Vector C5. -/
theorem test_cmp_flags :
    look (fun t => t.flags) (mk 0x0023 0 [(1, 1), (3, 0x8000)]) = some ⟨false, true, true, true⟩ := by decide
/-- `CMP R1, R7` (2.5, last paragraph). -/
theorem test_cmp_bit_2_names_r7 :
    look (fun t => (t.flags.z, t.reg 0, t.reg 1)) (mk 0x0027 0 [(1, 5), (7, 5), (3, 9)]) = some (true, 0, 5) := by decide
/-- Vector J12. -/
theorem test_jmp_wraps : look (fun t => t.pc) (mk 0x08FC 0xFFFE []) = some 0xFC := by decide
/-- Vector J3: taken with `Z = 1`, `S = 0`. -/
theorem test_jeq_taken :
    look (fun t => t.pc) ((mk 0x0805 8 []).setFlags ⟨true, false, false, false⟩) = some 0xF := by decide
/-- Vector J4. -/
theorem test_jeq_not_taken : look (fun t => t.pc) (mk 0x0805 8 []) = some 0xA := by decide
/-- Vector J6. -/
theorem test_jlt_taken :
    look (fun t => t.pc) ((mk 0x0802 6 []).setFlags ⟨false, true, false, false⟩) = some 0xA := by decide
/-- Vector J15: `Z = S = 1` is not taken. -/
theorem test_jlt_not_taken : look (fun t => t.pc) (mk 0x0802 6 [] true) = some 8 := by decide
/-- Vector J13. -/
theorem test_jgt_taken : look (fun t => t.pc) (mk 0x08FF 0x100 []) = some 0x201 := by decide
/-- Vector J9. -/
theorem test_jgt_not_taken :
    look (fun t => t.pc) ((mk 0x0807 0x10 []).setFlags ⟨false, true, false, false⟩) = some 0x12 := by decide
/-- Vector Y1. -/
theorem test_nop : look (fun t => (t.pc, t.ir, t.dumps, t.run)) (mk 0 4 []) = some (6, 0, 1, .running) := by decide
/-- Vector Y2, with the exit status of R145. -/
theorem test_halt : look (fun t => (t.pc, t.ir, t.dumps, t.exitStatus)) (mk 0xF803 0 []) = some (2, 0xF803, 1, some 0) := by decide
/-- Vectors Y3, Y4. -/
theorem test_unrecognised : look (fun t => (t.pc, t.dumps, t.run)) (mk 0xF000 0 []) = some (2, 0, .running) ∧
    look (fun t => (t.pc, t.dumps, t.run)) (mk 0xF800 0 []) = some (2, 0, .running) := by decide
/-- The same for the other two classes of R58. -/
theorem test_unrecognised_modes : look (fun t => (t.pc, t.dumps, t.run)) (mk 0xF801 0 []) = some (2, 0, .running) ∧
    look (fun t => (t.pc, t.dumps, t.run)) (mk 0xFFFE 0 []) = some (2, 0, .running) := by decide
/-- Vector F3: a fetch across the top of memory. -/
theorem test_fetch_wraps : look (fun t => (t.ir, t.pc, t.reg 1))
    { State.reset with pc := 0xFFFF, imem := [(0, 0x19), (0xFFFF, 0x05)] } = some (0x1905, 1, 5) := by decide
/-- Vector S8: the Loader's split. -/
theorem test_loader_split : loadImage [(0x10, 0x1234)] = [(0x10, 0x34), (0x11, 0x12)] := by decide
/-- Writing 0 unlists a byte: equal memories are equal data. -/
theorem test_memory_write_zero : Memory.write [(3, 7), (9, 1)] 3 0 = [(9, 1)] := by decide

/-! ## Witnesses: for each obligation with hypotheses, a state and operands that meet them together -/

theorem witness_DecodeSelectsByMaskAndMatch :
    opcodeRows[3]? = some ⟨"CMP", 0xF803#16, 0x0003#16, 0xF8E7#16⟩ ∧ (0x0023#16 &&& 0xF803#16) = 0x0003#16 ∧
    (0x0041#16 &&& 0xF803#16) ≠ 0x0003#16 := by decide

theorem witness_IgnoredBitsHaveNoEffect :
    opcodeRows[(decodeWord 0x4022).row]? = some ⟨"ADD", 0xF000#16, 0x4000#16, 0xF7E7#16⟩ ∧
    (0x483A#16 &&& 0xF7E7#16) = (0x4022#16 &&& 0xF7E7#16) ∧ 0x483A#16 ≠ 0x4022#16 := by decide

theorem witness_EncodingADecodedWordClearsItsIgnoredBits :
    opcodeRows[(decodeWord 0x483A).row]? = some ⟨"ADD", 0xF000#16, 0x4000#16, 0xF7E7#16⟩ := by decide

theorem witness_DecodeOfEncodeIsTheInstruction :
    ∀ i ∈ [Instr.cmp 7 3, .cmp 0 7, .jmp 252, .jeq 1, .jlt 254, .jgt 255, .strImm 0xFF, .halt, .undMode2],
      i.wf = true := by decide

theorem witness_StepRunsTheDecodedInstruction :
    (mk 0x1905 0xFFFF []).run = .running ∧
    decode [(mk 0x1905 0xFFFF []).fetchByte (mk 0x1905 0xFFFF []).pc,
      (mk 0x1905 0xFFFF []).fetchByte ((mk 0x1905 0xFFFF []).pc + 1#16)] = .ok (.movImm 1 5) [] := by decide

theorem witness_FetchIsLittleEndianAndWraps : (mk 0x1905 0xFFFF []).run = .running := by decide

/-- A taken and a not-taken branch. -/
theorem witness_PcAdvancesByTwoAndTakenBranchesOnlyAddImm8 :
    (mk 0x08FC 0xFFFE []).run = .running ∧ (decodeWord (mk 0x08FC 0xFFFE []).fetchWord).branchTaken (mk 0x08FC 0xFFFE []).flags = true ∧
    (mk 0x0805 8 []).run = .running ∧ (decodeWord (mk 0x0805 8 []).fetchWord).branchTaken (mk 0x0805 8 []).flags = false := by
  decide

/-- A taken JGT and a JMP. -/
theorem witness_OnlyTakenJeqAndJgtFlipPcParity :
    (mk 0x0807 0 []).run = .running ∧ look State.pc (mk 0x0807 0 []) = some 9 ∧
    (mk 0x0804 0 []).run = .running ∧ look State.pc (mk 0x0804 0 []) = some 6 := by decide

theorem witness_HaltedMachineNeverChanges : { mk 0 0 [] with run := .halted .stackOverflow }.run ≠ .running := by decide

/-- Each clause: a halted machine, HALT, PUSH at depths 15 and 16, POP at depths 1 and 0. -/
theorem witness_RunStateTransitions :
    look State.run { mk 0 0 [] with run := .halted .clean } = some (.halted .clean) ∧
    look State.run (mk 0xF803 0 []) = some (.halted .clean) ∧
    look State.run { mk 0x0041 0 [] with sp := ⟨15⟩ } = some (.halted .stackOverflow) ∧
    look State.run { mk 0x0041 0 [] with sp := ⟨16⟩ } = some (.halted .stackOverflow) ∧
    look State.run { mk 0x0041 0 [] with sp := ⟨14⟩ } = some .running ∧
    look State.run { mk 0x0402 0 [] with sp := ⟨1⟩ } = some (.halted .stackUnderflow) ∧
    look State.run (mk 0x0402 0 []) = some (.halted .stackUnderflow) ∧
    look State.run { mk 0x0402 0 [] with sp := ⟨2⟩ } = some .running := by decide

/-- A run that stores, and another state with its `pc` and image that differs in data memory. -/
theorem witness_FetchNeverSeesAStore :
    ∃ t u : State, core.run 1 (mk 0x2220 0 [(1, 0x40), (2, 0x7239)]) = .next t ∧ t.dmem ≠ [] ∧
      u.pc = t.pc ∧ KeepsImem (mk 0x2220 0 [(1, 0x40), (2, 0x7239)]) u ∧ u ≠ t :=
  ⟨_, { mk 0x2220 0 [(1, 0x40), (2, 0x7239)] with pc := 2 }, rfl, by decide, rfl, fun _ => rfl, by decide⟩

theorem witness_FaultsArePrecise :
    { mk 0x0041 0 [] with sp := ⟨16⟩ }.run = .running ∧
    look State.run { mk 0x0041 0 [] with sp := ⟨16⟩ } = some (.halted .stackOverflow) ∧
    (mk 0x0402 0 []).run = .running ∧ look State.run (mk 0x0402 0 []) = some (.halted .stackUnderflow) := by decide

/-- A NOP, and a MOV that dumps nothing. -/
theorem witness_DumpsAreEmittedByNopHaltAndFaultsOnly :
    (mk 0 0 []).run = .running ∧ look State.dumps (mk 0 0 []) = some 1 ∧
    (mk 0x1905 0 []).run = .running ∧ look State.dumps (mk 0x1905 0 []) = some 0 := by decide

theorem witness_ExitStatusTellsCleanHaltFromFault :
    (mk 0xF803 0 []).run = .running ∧ look State.exitStatus (mk 0xF803 0 []) = some (some 0) ∧
    look State.exitStatus (mk 0x0402 0 []) = some (some 1) ∧
    look State.exitStatus { mk 0x0041 0 [] with sp := ⟨16⟩ } = some (some 1) ∧
    look State.exitStatus (mk 0 0 []) = some none := by decide

/-- The lowest and the highest address of the stack region. -/
theorem witness_ResetValues :
    inStackRegion (Config.stackBase - 16#16) = true ∧ inStackRegion (Config.stackBase - 1#16) = true := by
  have h := stackBase_bounds
  have h1 : (Config.stackBase - 16#16).toNat = Config.stackBase.toNat - 16 :=
    BitVec.toNat_sub_of_le (by simpa [BitVec.le_def] using h.1)
  have h2 : (Config.stackBase - 1#16).toNat = Config.stackBase.toNat - 1 :=
    BitVec.toNat_sub_of_le (by simp [BitVec.le_def]; omega)
  simp only [inStackRegion, h1, h2, Bool.and_eq_true, decide_eq_true_eq, Config.stackSize]
  omega

/-- A state with something in every memory, about to push. -/
def busy : State :=
  { mk 0x0041 0 [(2, 0x7239)] with
    sp := ⟨2⟩, stk := [(14, 0x72), (15, 0x39)], dmem := [(0x40, 0x39), (0xFFFF, 1)], flags := ⟨false, true, true, false⟩ }

theorem witness_StepKeepsTheInvariant :
    (∃ t, busy.Inv ∧ step busy = .next t) ∧
    ∃ t, { busy with sp := ⟨16⟩ }.Inv ∧ step { busy with sp := ⟨16⟩ } = .next t ∧ t.run = .halted .stackOverflow :=
  ⟨⟨_, by constructor <;> decide, rfl⟩, _, by constructor <;> decide, rfl, rfl⟩

/-- After two steps of the image `PUSH R2; PUSH R2`. -/
theorem witness_StackPointerStaysInBoundsOnEveryRun :
    ∃ t, core.run 2 (State.boot (loadImage [(0, 0x0041), (2, 0x0041)])) = .next t ∧ t.sp.depth.val = 4 := ⟨_, rfl, rfl⟩

theorem witness_FlagsAreRecomputedWholesaleOrKept :
    (Instr.cmp 1 3).definesFlags = true ∧ (Instr.ror 0 1).definesFlags = false ∧ (Instr.push 1).definesFlags = false := by decide

/-- Each clause: a register other than the destination, a branch not taken, an instruction that is neither PUSH, POP, STR nor HALT. -/
theorem witness_WritersOfEachPieceOfState :
    (Instr.add 0 1 2).destReg ≠ some 3 ∧ (Instr.add 0 1 2).branchTaken ⟨true, true, true, true⟩ = false ∧
    (Instr.jlt 2).branchTaken ⟨true, true, false, false⟩ = false ∧ (Instr.ror 0 1).definesFlags = false ∧
    (∀ rn, Instr.add 0 1 2 ≠ .push rn) ∧ (∀ rd, Instr.add 0 1 2 ≠ .pop rd) ∧
    (∀ rd rn, Instr.add 0 1 2 ≠ .strReg rd rn) ∧ Instr.add 0 1 2 ≠ .halt := by
  refine ⟨by decide, by decide, by decide, by decide, ?_, ?_, ?_, by decide⟩ <;> intros <;> exact Instr.noConfusion

/-- A register that is written but not read (a faulting and a completing POP, MOV), and one that is neither. -/
theorem witness_OnlySourceRegistersAreRead :
    4#3 ∉ (Instr.pop 4).sources ∧ (Instr.pop 4).destReg = some 4 ∧ 0#3 ∉ (Instr.add 0 1 2).sources ∧
    (Instr.add 0 1 2).destReg = some 0 ∧ 3#3 ∉ (Instr.add 0 1 2).sources ∧ (Instr.add 0 1 2).destReg ≠ some 3 := by decide

/-! The words below satisfy the mask and value of the encoding clause of each instruction's statement. -/

theorem witness_MovRegisterCopiesTheSource : (0x12E3#16 &&& 0xF800#16) = 0x1000#16 := by decide
theorem witness_MovImmediateLoadsTheZeroExtendedConstant : (0x1FFF#16 &&& 0xF800#16) = 0x1800#16 := by decide
/-- The word, and R0 and R7, the ends of the destination's range. -/
theorem witness_StrImmediateWritesTheRegisterItsTopBitsName :
    (0x2F05#16 &&& 0xF800#16) = 0x2800#16 ∧ (0#3).toNat = (0x1F#8).toNat / 32 ∧ (7#3).toNat = (0xE0#8).toNat / 32 := by decide
/-- The word, the store at the top address, and another address. -/
theorem witness_StrRegisterStoresOneByte :
    (0x2220#16 &&& 0xF800#16) = 0x2000#16 ∧ strAddress 1 (mk 0x2220 0 [(1, 0xFFFF)]) = 0xFFFF#16 ∧ 0#16 ≠ 0xFFFF#16 := by decide
theorem witness_LdrLoadsOneByteZeroExtended : (0x3B01#16 &&& 0xF000#16) = 0x3000#16 := by decide
theorem witness_AddGivesTheSumAndItsFlags : (0x483A#16 &&& 0xF000#16) = 0x4000#16 := by decide
theorem witness_SubGivesTheDifferenceAndItsFlags : (0x5341#16 &&& 0xF000#16) = 0x5000#16 := by decide
theorem witness_MulGivesTheLowHalfOfTheProduct : (0x6242#16 &&& 0xF000#16) = 0x6000#16 := by decide
theorem witness_AndOrrXorWorkBitByBit :
    (0x7022#16 &&& 0xF000#16) = 0x7000#16 ∧ (0x8022#16 &&& 0xF000#16) = 0x8000#16 ∧
    (0xA5A5#16 &&& 0xF000#16) = 0xA000#16 ∧ 0 < 16 ∧ 15 < 16 := by decide
theorem witness_NotComplementsTheSource : (0x94A0#16 &&& 0xF000#16) = 0x9000#16 := by decide
theorem witness_ShiftsMoveByOnePlace :
    (0xB020#16 &&& 0xF000#16) = 0xB000#16 ∧ (0xC020#16 &&& 0xF000#16) = 0xC000#16 := by decide
theorem witness_LogicFlagPolicy :
    Instr.shl 0 1 ∈ [Instr.andR 0 1 2, .orr 0 1 2, .notR 0 1, .xorR 0 1 2, .shr 0 1, .shl 0 1] := by decide
theorem witness_RotatesMoveByOnePlaceAndKeepFlags :
    (0xD020#16 &&& 0xF000#16) = 0xD000#16 ∧ (0xE6C0#16 &&& 0xF000#16) = 0xE000#16 ∧ 0 < 16 ∧ 15 < 16 := by decide

theorem depth_addr (n : Fin 17) : (StackPointer.mk n).addr.toNat = Config.stackBase.toNat - n.val := StackPointer.addr_toNat _

/-- The word; the empty stack and depth 14, the last depth at which a PUSH fits; another stack address. -/
theorem witness_PushStoresLowByteAboveHighByte :
    (0x0041#16 &&& 0xF803#16) = 0x0001#16 ∧
    Config.stackBase.toNat + 2 ≤ (mk 0x0041 0 []).sp.addr.toNat + 16 ∧
    Config.stackBase.toNat + 2 ≤ { mk 0x0041 0 [] with sp := ⟨14⟩ }.sp.addr.toNat + 16 ∧
    (mk 0x0041 0 []).sp.addr - 3#16 ≠ (mk 0x0041 0 []).sp.addr - 1#16 ∧
    (mk 0x0041 0 []).sp.addr - 3#16 ≠ (mk 0x0041 0 []).sp.addr - 2#16 := by
  have h := stackBase_bounds
  have h0 : (mk 0x0041 0 []).sp.addr.toNat = Config.stackBase.toNat - 0 := depth_addr 0
  have h14 : { mk 0x0041 0 [] with sp := ⟨14⟩ }.sp.addr.toNat = Config.stackBase.toNat - 14 := depth_addr 14
  refine ⟨by decide, by omega, by omega, fun e => ?_, fun e => ?_⟩ <;>
    exact absurd ((BitVec.sub_right_inj _).1 e) (by decide)

/-- The word; depth 2, the last at which a POP finds its bytes, and the full stack. -/
theorem witness_PopLoadsHighByteThenLowByte :
    (0x0402#16 &&& 0xF803#16) = 0x0002#16 ∧
    { mk 0x0402 0 [] with sp := ⟨2⟩ }.sp.addr.toNat + 2 ≤ Config.stackBase.toNat ∧
    { mk 0x0402 0 [] with sp := ⟨16⟩ }.sp.addr.toNat + 2 ≤ Config.stackBase.toNat := by
  have h := stackBase_bounds
  have h2 : { mk 0x0402 0 [] with sp := ⟨2⟩ }.sp.addr.toNat = Config.stackBase.toNat - 2 := depth_addr 2
  have h16 : { mk 0x0402 0 [] with sp := ⟨16⟩ }.sp.addr.toNat = Config.stackBase.toNat - 16 := depth_addr 16
  exact ⟨by decide, by omega, by omega⟩

/-- PUSH at depths 15 and 16, POP at depths 1 and 0. -/
theorem witness_StackFaultsHaltAndChangeNothingElse :
    ({ mk 0 0 [] with sp := ⟨16⟩ }.sp.addr.toNat : Int) - 2 < Config.stackBase.toNat - 16 ∧
    ({ mk 0 0 [] with sp := ⟨15⟩ }.sp.addr.toNat : Int) - 2 < Config.stackBase.toNat - 16 ∧
    Config.stackBase.toNat < (mk 0 0 []).sp.addr.toNat + 2 ∧
    Config.stackBase.toNat < { mk 0 0 [] with sp := ⟨1⟩ }.sp.addr.toNat + 2 := by
  have h := stackBase_bounds
  have h16 : { mk 0 0 [] with sp := ⟨16⟩ }.sp.addr.toNat = Config.stackBase.toNat - 16 := depth_addr 16
  have h15 : { mk 0 0 [] with sp := ⟨15⟩ }.sp.addr.toNat = Config.stackBase.toNat - 15 := depth_addr 15
  have h0 : (mk 0 0 []).sp.addr.toNat = Config.stackBase.toNat - 0 := depth_addr 0
  have h1 : { mk 0 0 [] with sp := ⟨1⟩ }.sp.addr.toNat = Config.stackBase.toNat - 1 := depth_addr 1
  exact ⟨by omega, by omega, by omega, by omega⟩

/-- Depth 12 with a nested pair between, and depth 14 with none. -/
theorem witness_PopRestoresWhatPushPushed :
    (∃ s1 s2, { busy with sp := ⟨12⟩ }.sp.depth.val ≤ 14 ∧
      Balanced [.movImm 2 7, .push 2, .add 2 2 2, .pop 3] ∧
      exec (.push 2) { busy with sp := ⟨12⟩ } = .next s1 ∧ NoStackFault [.movImm 2 7, .push 2, .add 2 2 2, .pop 3] s1 ∧
      execSeq [.movImm 2 7, .push 2, .add 2 2 2, .pop 3] s1 = .next s2) ∧
    ∃ s1 s2, { busy with sp := ⟨14⟩ }.sp.depth.val ≤ 14 ∧ Balanced [.movImm 2 7] ∧
      exec (.push 2) { busy with sp := ⟨14⟩ } = .next s1 ∧ NoStackFault [.movImm 2 7] s1 ∧
      execSeq [.movImm 2 7] s1 = .next s2 := by
  refine ⟨⟨_, _, by decide, .other _ _ rfl (.pair 2 3 [.add 2 2 2] [] (.other _ _ rfl .nil) .nil), rfl, ?_, rfl⟩,
    _, _, by decide, .other _ _ rfl .nil, rfl, ?_, rfl⟩
  · rintro t ⟨⟩
    refine ⟨by decide, by decide, ?_⟩
    rintro t ⟨⟩
    refine ⟨by decide, by decide, ?_⟩
    rintro t ⟨⟩
    refine ⟨by decide, by decide, ?_⟩
    rintro t ⟨⟩
    exact ⟨by decide, by decide, trivial⟩
  · rintro t ⟨⟩
    exact ⟨by decide, by decide, trivial⟩

theorem witness_StackHoldsEightValues :
    (mk 0 0 []).run = .running ∧ (mk 0 0 []).sp.addr = Config.stackBase ∧
    (List.replicate 8 (1#3)).length ≤ 8 ∧ (List.replicate 8 (1#3)).length = 8 := by
  refine ⟨by decide, BitVec.sub_zero _, by decide, by decide⟩

theorem witness_CmpSetsTheFlagsOfSubAndNothingElse :
    (0x0763#16 &&& 0xF803#16) = 0x0003#16 ∧ (0x0027#16 &&& 0xF803#16) = 0x0003#16 := by decide
theorem witness_JmpAddsTheDisplacement : (0x0F04#16 &&& 0xF803#16) = 0x0800#16 := by decide
theorem witness_ConditionalBranchesTestZAndS :
    (0x0805#16 &&& 0xF803#16) = 0x0801#16 ∧ (0x0802#16 &&& 0xF803#16) = 0x0802#16 ∧
    (0x08FF#16 &&& 0xF803#16) = 0x0803#16 := by decide

/-- The three flag states one result can produce. -/
theorem witness_ExactlyOneConditionalBranchIsTaken :
    (Instr.jeq 1).wf = true ∧ (Instr.jlt 254).wf = true ∧ (Instr.jgt 255).wf = true ∧
    ∀ f ∈ [(true, false), (false, true), (false, false)], (f.1 && f.2) = false := by decide

theorem witness_NopEmitsADumpAndNothingElse :
    (0x07FC#16 &&& 0xF803#16) = 0x0000#16 ∧ (mk 0x07FC 4 []).run = .running ∧
    (mk 0x07FC 4 []).fetchWord &&& 0xF803#16 = 0x0000#16 := by decide
theorem witness_HaltStopsTheMachineCleanly :
    (0xFFFF#16 &&& 0xF803#16) = 0xF803#16 ∧ (mk 0xFFFF 4 []).run = .running ∧
    (mk 0xFFFF 4 []).fetchWord &&& 0xF803#16 = 0xF803#16 := by decide
/-- A word of each class, the last one bit away from HALT. -/
theorem witness_UnrecognisedWordsAreSilentNoOps :
    Instr.undImm0 ∈ [Instr.undImm0, .undMode0, .undMode1, .undMode2] ∧
    ∀ w ∈ [0xF7FF, 0xF800, 0xF801, 0xFFFE], (mk w 0 []).run = .running ∧
      (mk w 0 []).fetchWord &&& 0xF000#16 = 0xF000#16 ∧ (mk w 0 []).fetchWord &&& 0xF803#16 ≠ 0xF803#16 := by decide

theorem witness_CanonicalStoresThatReadAlikeAreEqual :
    Memory.wf 16 [(0, 7), (15, 1)] = true ∧
    ∀ a, a < 16 → Memory.read [(0, 7), (15, 1)] a = Memory.read (Memory.write [(15, 1)] 0 7) a := by
  decide

/-- A line at the last address, over an earlier line, and a third address. -/
theorem witness_LoadedWordsAreFetched :
    { mk 0 0 [] with pc := 0xFFFF, imem := loadImage ([(0, 0x1111)] ++ [(0xFFFF, 0x1905)]) }.imem =
      loadImage ([(0, 0x1111)] ++ [(0xFFFF, 0x1905)]) ∧
    1#16 ≠ 0xFFFF#16 ∧ 1#16 ≠ 0xFFFF#16 + 1#16 ∧
    { mk 0 0 [] with pc := 0xFFFF, imem := loadImage ([(0, 0x1111)] ++ [(0xFFFF, 0x1905)]) }.pc = 0xFFFF#16 := by decide

end Sys2Proof.Tests
end

section
/-! PROOFS, 10_state.md: what an instruction computes, apart from how the state takes it. `Instr.effect` reads the state and
names one of ten state operations with its operands; `Effect.apply` performs it. A fact about every instruction is then a fact
about the ten operations and one about the operands. -/

namespace Sys2Proof.Machine

/-- The state operations an instruction comes down to. -/
inductive Effect where
  | nothing
  | dump
  | halt (cause : HaltCause)
  | writeReg (d : Reg) (v : Word)
  | writeResult (d : Reg) (r : Word) (f : Flags)
  | writeFlags (f : Flags)
  | store (a : Word) (v : Byte)
  | branch (displacement : Word)
  | push (v : Word)
  | pop (d : Reg)

namespace Effect

/-- Perform the operation. -/
def apply : Effect → State → State
  | nothing, s => s
  | dump, s => s.emitDump
  | halt cause, s => s.haltWith cause
  | writeReg d v, s => s.setReg d v
  | writeResult d r f, s => s.writeResult d r f
  | writeFlags f, s => s.setFlags f
  | store a v, s => s.memWrite a v
  | branch displacement, s => s.branchBy displacement
  | push v, s => (s.pushByte (lowByte v)).pushByte (highByte v)
  | pop d, s => s.dropByte.dropByte.setReg d (joinBytes s.topByte s.dropByte.topByte)

/-- The general register the operation writes. -/
def destReg : Effect → Option Reg
  | writeReg d _ | writeResult d _ _ | pop d => some d
  | nothing | dump | halt _ | writeFlags _ | store _ _ | branch _ | push _ => none

/-- The flags the operation writes, all four or none (10_state.md R15). -/
def newFlags : Effect → Option Flags
  | writeResult _ _ f | writeFlags f => some f
  | nothing | dump | halt _ | writeReg _ _ | store _ _ | branch _ | push _ | pop _ => none

/-- What the operation adds to `pc`. -/
def pcOffset : Effect → Word
  | branch displacement => displacement
  | nothing | dump | halt _ | writeReg _ _ | writeResult _ _ _ | writeFlags _ | store _ _ | push _ | pop _ => 0#16

/-- Why the operation halts the machine, if it does. -/
def haltCause : Effect → Option HaltCause
  | halt cause => some cause
  | nothing | dump | writeReg _ _ | writeResult _ _ _ | writeFlags _ | store _ _ | branch _ | push _ | pop _ => none

/-- What an instruction's effect satisfies at the state it was computed from: bytes move on the stack only where they fit, a
fault names the depth that caused it (20_memory.md R37), and flags come from one result (44_compare_branch.md R114). -/
def Admissible (s : State) : Effect → Prop
  | halt .stackOverflow => 14 < s.sp.depth.val
  | halt .stackUnderflow => s.sp.depth.val < 2
  | writeResult _ _ f | writeFlags f => (f.z && f.s) = false
  | push _ => s.sp.depth.val ≤ 14
  | pop _ => 2 ≤ s.sp.depth.val
  | nothing | dump | halt .clean | writeReg _ _ | store _ _ | branch _ => True

end Effect

end Sys2Proof.Machine

namespace Sys2Proof
open Sys2Proof.Machine

/-- The operation an instruction performs at a state, its operands read from that state. -/
def Instr.effect (i : Instr) (s : State) : Effect :=
  match i with
  | .nop => .dump
  | .push rn => if s.sp.depth.val ≤ 14 then .push (s.reg rn) else .halt .stackOverflow
  | .pop rd => if 2 ≤ s.sp.depth.val then .pop rd else .halt .stackUnderflow
  | .cmp rn rm => .writeFlags (flagsOfSub (s.reg rn) (s.reg rm))
  | .jmp imm8 | .jeq imm8 | .jlt imm8 | .jgt imm8 =>
    if i.branchTaken s.flags then .branch (zext16 imm8) else .nothing
  | .movReg rd rm => .writeReg rd (s.reg rm)
  | .movImm rd imm8 => .writeReg rd (zext16 imm8)
  | .strReg rd rn => .store (strAddress rn s) (strByte rd s)
  | .strImm imm8 => .writeReg (strImmDest imm8) (zext16 imm8)
  | .ldr rd rm => .writeReg rd (zext16 (s.memRead (ldrAddress rm s)))
  | .add rd rn rm => .writeResult rd (s.reg rn + s.reg rm) (flagsOfAdd (s.reg rn) (s.reg rm))
  | .sub rd rn rm => .writeResult rd (s.reg rn - s.reg rm) (flagsOfSub (s.reg rn) (s.reg rm))
  | .mul rd rn rm => .writeResult rd (s.reg rn * s.reg rm) (flagsOfResult (s.reg rn * s.reg rm))
  | .andR rd rn rm => .writeResult rd (s.reg rn &&& s.reg rm) (flagsOfResult (s.reg rn &&& s.reg rm))
  | .orr rd rn rm => .writeResult rd (s.reg rn ||| s.reg rm) (flagsOfResult (s.reg rn ||| s.reg rm))
  | .notR rd rn => .writeResult rd (~~~ s.reg rn) (flagsOfResult (~~~ s.reg rn))
  | .xorR rd rn rm => .writeResult rd (s.reg rn ^^^ s.reg rm) (flagsOfResult (s.reg rn ^^^ s.reg rm))
  | .shr rd rn => .writeResult rd (shiftRightOne (s.reg rn)) (flagsOfResult (shiftRightOne (s.reg rn)))
  | .shl rd rn => .writeResult rd (shiftLeftOne (s.reg rn)) (flagsOfResult (shiftLeftOne (s.reg rn)))
  | .ror rd rn => .writeReg rd (rotateRightOne (s.reg rn))
  | .rol rd rn => .writeReg rd (rotateLeftOne (s.reg rn))
  | .halt => .halt .clean
  | .undImm0 | .undMode0 | .undMode1 | .undMode2 => .nothing

end Sys2Proof

namespace Sys2Proof.Machine

/-! ### Every instruction performs its effect -/

theorem effect_push_fits {s : State} (rn : Reg) (h : s.sp.depth.val ≤ 14) :
    (Instr.push rn).effect s = .push (s.reg rn) := if_pos h

theorem effect_push_overflows {s : State} (rn : Reg) (h : 14 < s.sp.depth.val) :
    (Instr.push rn).effect s = .halt .stackOverflow := if_neg (Nat.not_le.2 h)

theorem effect_pop_fits {s : State} (rd : Reg) (h : 2 ≤ s.sp.depth.val) :
    (Instr.pop rd).effect s = .pop rd := if_pos h

theorem effect_pop_underflows {s : State} (rd : Reg) (h : s.sp.depth.val < 2) :
    (Instr.pop rd).effect s = .halt .stackUnderflow := if_neg (Nat.not_le.2 h)

/-- A conditional effect, performed. -/
theorem apply_branch_if (c : Bool) (d : Word) (s : State) :
    (if c then Effect.branch d else .nothing).apply s = if c then s.branchBy d else s := by
  cases c <;> rfl

/-- An instruction answers exactly the state its effect leads to. -/
theorem exec_eq_effect (i : Instr) (s : State) : exec i s = .next ((i.effect s).apply s) := by
  cases i with
  | push rn =>
    rcases Nat.lt_or_ge 14 s.sp.depth.val with h | h
    · rw [exec_push_fault rn s h, effect_push_overflows rn h]; rfl
    · rw [exec_push_ok rn s h, effect_push_fits rn h]; rfl
  | pop rd =>
    rcases Nat.lt_or_ge s.sp.depth.val 2 with h | h
    · rw [exec_pop_fault rd s h, effect_pop_underflows rd h]; rfl
    · rw [exec_pop_ok rd s h, effect_pop_fits rd h]; rfl
  | jeq imm8 => rw [exec_jeq]; exact congrArg _ (apply_branch_if s.flags.z _ s).symm
  | jlt imm8 => rw [exec_jlt]; exact congrArg _ (apply_branch_if (s.flags.s && !s.flags.z) _ s).symm
  | jgt imm8 => rw [exec_jgt]; exact congrArg _ (apply_branch_if (!s.flags.z && !s.flags.s) _ s).symm
  | _ => rfl

/-- A running machine performs the effect of the fetched word at the state the fetch left. -/
theorem step_eq_effect {s : State} (h : s.run = .running) :
    step s = .next (((decodeWord s.fetchWord).effect s.afterFetch).apply s.afterFetch) := by
  rw [step_running h, exec_eq_effect]

theorem step_of_not_running {s : State} (h : s.run ≠ .running) : step s = .next s := by
  cases hr : s.run with
  | running => exact absurd hr h
  | halted c => exact step_halted hr

/-- Every step answers a next state. -/
theorem exists_step_eq_next (s : State) : ∃ t, step s = .next t := by
  by_cases hr : s.run = .running
  · exact ⟨_, step_eq_effect hr⟩
  · exact ⟨s, step_of_not_running hr⟩

/-- Everything a step can do, by effect. -/
theorem step_effect_cases {s t : State} (h : step s = .next t) :
    (s.run = .running ∧ t = ((decodeWord s.fetchWord).effect s.afterFetch).apply s.afterFetch) ∨
    (s.run ≠ .running ∧ t = s) := by
  rcases step_cases h with ⟨hr, he⟩ | hs
  · rw [exec_eq_effect] at he
    exact .inl ⟨hr, (Host.Outcome.next.inj he).symm⟩
  · exact .inr hs

/-! ### What performing an effect changes and leaves -/

namespace Effect

theorem apply_reg_of_ne {e : Effect} {r : Reg} (h : e.destReg ≠ some r) (s : State) : (e.apply s).reg r = s.reg r := by
  cases e with
  | writeReg d | writeResult d | pop d =>
    have hne : r ≠ d := fun hr => h (congrArg some hr.symm)
    exact (State.setReg_reg ..).trans (if_neg hne)
  | _ => rfl

@[simp] theorem apply_flags (e : Effect) (s : State) : (e.apply s).flags = e.newFlags.getD s.flags := by
  cases e <;> rfl

@[simp] theorem apply_pc (e : Effect) (s : State) : (e.apply s).pc = s.pc + e.pcOffset := by
  cases e with
  | branch displacement => rfl
  | _ => exact (BitVec.add_zero _).symm

@[simp] theorem apply_ir (e : Effect) (s : State) : (e.apply s).ir = s.ir := by
  cases e <;> rfl

@[simp] theorem apply_imem (e : Effect) (s : State) : (e.apply s).imem = s.imem := by
  cases e <;> rfl

@[simp] theorem apply_run (e : Effect) (s : State) : (e.apply s).run = e.haltCause.elim s.run .halted := by
  cases e <;> rfl

theorem apply_stk {e : Effect} (h : ∀ v, e ≠ .push v) (s : State) : (e.apply s).stk = s.stk := by
  cases e with
  | push v => exact absurd rfl (h v)
  | _ => rfl

theorem apply_sp {e : Effect} (hpush : ∀ v, e ≠ .push v) (hpop : ∀ d, e ≠ .pop d) (s : State) :
    (e.apply s).sp = s.sp := by
  cases e with
  | push v => exact absurd rfl (hpush v)
  | pop d => exact absurd rfl (hpop d)
  | _ => rfl

theorem apply_dmem {e : Effect} (h : ∀ a v, e ≠ .store a v) (s : State) : (e.apply s).dmem = s.dmem := by
  cases e with
  | store a v => exact absurd rfl (h a v)
  | _ => rfl

end Effect
end Sys2Proof.Machine
end

section
/-! PROOFS, 10_state.md R26: which effects an instruction can have, and what it reads. -/

namespace Sys2Proof.Machine

/-! ### Which effects an instruction can have -/

/-- A PUSH or POP that faults writes no register; every other effect writes the instruction's destination. -/
theorem effect_destReg (i : Instr) (s : State) :
    (i.effect s).destReg = i.destReg ∨ ∃ c, i.effect s = .halt c := by
  cases i with
  | push rn | pop rd | jmp imm8 | jeq imm8 | jlt imm8 | jgt imm8 =>
    simp only [Instr.effect]; split <;> simp [Effect.destReg, Instr.destReg]
  | _ => exact .inl rfl

theorem effect_destReg_ne {i : Instr} {r : Reg} (h : i.destReg ≠ some r) (s : State) :
    (i.effect s).destReg ≠ some r := by
  rcases effect_destReg i s with hd | ⟨c, hc⟩
  · rwa [hd]
  · rw [hc]; simp [Effect.destReg]

/-- The flag-defining class is exactly the instructions whose effect writes flags (10_state.md R15). -/
theorem effect_newFlags_isSome (i : Instr) (s : State) : (i.effect s).newFlags.isSome = i.definesFlags := by
  cases i with
  | push rn | pop rd | jmp imm8 | jeq imm8 | jlt imm8 | jgt imm8 =>
    simp only [Instr.effect]; split <;> rfl
  | _ => rfl

theorem effect_pcOffset_of_not_taken {i : Instr} {s : State} (h : i.branchTaken s.flags = false) :
    (i.effect s).pcOffset = 0#16 := by
  cases i with
  | push rn | pop rd => simp only [Instr.effect]; split <;> rfl
  | jmp imm8 | jeq imm8 | jlt imm8 | jgt imm8 => simp [Instr.effect, h, Effect.pcOffset]
  | _ => rfl

theorem effect_ne_push {i : Instr} (h : ∀ rn, i ≠ .push rn) (s : State) (v : Word) : i.effect s ≠ .push v := by
  cases i with
  | push rn => exact absurd rfl (h rn)
  | pop rd | jmp imm8 | jeq imm8 | jlt imm8 | jgt imm8 => simp only [Instr.effect]; split <;> nofun
  | _ => nofun

theorem effect_ne_pop {i : Instr} (h : ∀ rd, i ≠ .pop rd) (s : State) (d : Reg) : i.effect s ≠ .pop d := by
  cases i with
  | pop rd => exact absurd rfl (h rd)
  | push rn | jmp imm8 | jeq imm8 | jlt imm8 | jgt imm8 => simp only [Instr.effect]; split <;> nofun
  | _ => nofun

theorem effect_ne_store {i : Instr} (h : ∀ rd rn, i ≠ .strReg rd rn) (s : State) (a : Word) (v : Byte) :
    i.effect s ≠ .store a v := by
  cases i with
  | strReg rd rn => exact absurd rfl (h rd rn)
  | push rn | pop rd | jmp imm8 | jeq imm8 | jlt imm8 | jgt imm8 => simp only [Instr.effect]; split <;> nofun
  | _ => nofun

/-- When an effect halts the machine, and for what cause (10_state.md R20). -/
theorem effect_haltCause_iff (i : Instr) (s : State) (c : HaltCause) :
    (i.effect s).haltCause = some c ↔
      (i = .halt ∧ c = .clean) ∨ ((∃ rn, i = .push rn) ∧ 14 < s.sp.depth.val ∧ c = .stackOverflow) ∨
      ((∃ rd, i = .pop rd) ∧ s.sp.depth.val < 2 ∧ c = .stackUnderflow) := by
  cases i with
  | push rn | pop rd =>
    simp only [Instr.effect]; split <;> simp [Effect.haltCause, eq_comm] <;> omega
  | jmp imm8 | jeq imm8 | jlt imm8 | jgt imm8 =>
    simp only [Instr.effect]; split <;> simp [Effect.haltCause]
  | halt => simp [Instr.effect, Effect.haltCause, eq_comm]
  | _ => simp [Instr.effect, Effect.haltCause]

theorem effect_admissible (i : Instr) (s : State) : (i.effect s).Admissible s := by
  cases i with
  | push rn | pop rd =>
    simp only [Instr.effect]; split <;> simp only [Effect.Admissible] <;> omega
  | jmp imm8 | jeq imm8 | jlt imm8 | jgt imm8 =>
    simp only [Instr.effect]; split <;> trivial
  | cmp | add | sub | mul | andR | orr | notR | xorR | shr | shl => exact zf_and_sf _
  | _ => trivial

/-! ### What an instruction reads -/

/-- Two states that agree on all that `i` reads (10_state.md R26, column "read by"): its source registers, the depth, data
memory, and `Z` and `S` unless `i` defines the flags. -/
structure ReadsAlike (i : Instr) (s t : State) : Prop where
  sources : ∀ r ∈ i.sources, t.reg r = s.reg r
  depth : t.sp = s.sp
  dmem : KeepsDmem s t
  flags : i.definesFlags = false → t.flags.z = s.flags.z ∧ t.flags.s = s.flags.s

theorem branchTaken_congr (i : Instr) {f g : Flags} (hz : g.z = f.z) (hs : g.s = f.s) :
    i.branchTaken g = i.branchTaken f := by
  cases i <;> simp only [Instr.branchTaken, hz, hs]

theorem effect_congr {i : Instr} {s t : State} (h : ReadsAlike i s t) : i.effect t = i.effect s := by
  obtain ⟨hreg, hsp, hmem, hflags⟩ := h
  cases i with
  | jmp imm8 | jeq imm8 | jlt imm8 | jgt imm8 =>
    obtain ⟨hz, hs⟩ := hflags rfl
    simp only [Instr.effect, branchTaken_congr _ hz hs]
  | ldr rd rm =>
    have hrm : t.reg rm = s.reg rm := hreg rm (by simp [Instr.sources])
    simp only [Instr.effect, ldrAddress, hrm, hmem (s.reg rm)]
  | _ =>
    simp only [Instr.sources, List.mem_cons, List.not_mem_nil, or_false, forall_eq_or_imp, forall_eq] at hreg
    simp only [Instr.effect, strAddress, strByte, hreg, hsp]

/-! ### An effect from two states -/

theorem setReg_comm (s : State) {q d : Reg} (h : q ≠ d) (v w : Word) :
    (s.setReg q v).setReg d w = (s.setReg d w).setReg q v := by
  have hn : q.toNat ≠ d.toNat := fun e => h (BitVec.eq_of_toNat_eq e)
  simp only [State.setReg, Vector.set_comm _ _ hn]

theorem setReg_setReg (s : State) (q : Reg) (v w : Word) : (s.setReg q v).setReg q w = s.setReg q w := by
  simp [State.setReg]

/-- An effect carries along a register that it does not write. -/
theorem apply_setReg_of_ne {e : Effect} {q : Reg} (h : e.destReg ≠ some q) (s : State) (v : Word) :
    e.apply (s.setReg q v) = (e.apply s).setReg q v := by
  have hne {d : Reg} (hd : some d ≠ some q) : q ≠ d := fun hq => hd (congrArg some hq.symm)
  cases e with
  | writeReg d w => exact setReg_comm s (hne h) v w
  | writeResult d r f => exact congrArg (State.setFlags · f) (setReg_comm s (hne h) v r)
  | pop d => exact setReg_comm s.dropByte.dropByte (hne h) v _
  | _ => rfl

/-- An effect that writes a register does not see what it held. -/
theorem apply_setReg_of_dest {e : Effect} {q : Reg} (h : e.destReg = some q) (s : State) (v : Word) :
    e.apply (s.setReg q v) = e.apply s := by
  cases e with
  | writeReg d w => cases h; exact setReg_setReg s q v w
  | writeResult d r f => cases h; exact congrArg (State.setFlags · f) (setReg_setReg s q v r)
  | pop d => cases h; exact setReg_setReg s.dropByte.dropByte q v _
  | _ => cases h

/-- An effect replaces the flags before it or carries them along. -/
theorem apply_setFlags (e : Effect) (s : State) (f : Flags) :
    e.apply (s.setFlags f) = (e.apply s).setFlags (e.newFlags.getD f) := by
  cases e <;> rfl

end Sys2Proof.Machine
end

section
/-! PROOFS, 10_state.md R18: the invariant, at reset, over one step and over every run. -/

namespace Sys2Proof.Machine

/-! ### The invariant over one step -/

theorem inv_afterFetch {s : State} (h : s.Inv) : s.afterFetch.Inv := { h with }

/-- A PUSH that fits keeps the invariant: both bytes land inside stack memory and the depth grows by 2. -/
theorem inv_push {s : State} (h : s.Inv) (hr : s.run = .running) (hd : s.sp.depth.val ≤ 14) (lo hi : Byte) :
    ((s.pushByte lo).pushByte hi).Inv := by
  have hlo : s.sp.down.index < Config.stackSize := by
    simp only [StackPointer.index_eq, StackPointer.down_depth, Config.stackSize]; omega
  have hhi : s.sp.down.down.index < Config.stackSize := by
    simp only [StackPointer.index_eq, StackPointer.down_depth, Config.stackSize]; omega
  refine { h with stkWf := Memory.wf_write (Memory.wf_write h.stkWf hlo) hhi, depthEven := ?_,
                  overflowFull := ?_, underflowEmpty := ?_ }
  · have := h.depthEven
    simp only [State.pushByte_sp, StackPointer.down_depth]; omega
  all_goals simp [hr]

/-- A POP that finds two bytes keeps the invariant: the depth shrinks by 2. -/
theorem inv_pop {s : State} (h : s.Inv) (hr : s.run = .running) (hd : 2 ≤ s.sp.depth.val) (d : Reg) (v : Word) :
    (s.dropByte.dropByte.setReg d v).Inv := by
  refine { h with depthEven := ?_, overflowFull := ?_, underflowEmpty := ?_ }
  · have := h.depthEven
    simp only [State.setReg_sp, State.dropByte_sp, StackPointer.up_depth]; omega
  all_goals simp [hr]

/-- A halt for the cause that the depth gives keeps the invariant: an even depth above 14 is 16, one below 2 is 0. -/
theorem inv_haltWith {s : State} (h : s.Inv) {c : HaltCause} (hc : (Effect.halt c).Admissible s) : (s.haltWith c).Inv := by
  have heven := h.depthEven
  have hlt := s.sp.depth.isLt
  cases c with
  | clean => exact { h with overflowFull := nofun, underflowEmpty := nofun }
  | stackOverflow =>
    have hfull : 14 < s.sp.depth.val := hc
    exact { h with overflowFull := fun _ => by simp only [State.haltWith_sp]; omega, underflowEmpty := nofun }
  | stackUnderflow =>
    have hempty : s.sp.depth.val < 2 := hc
    exact { h with overflowFull := nofun, underflowEmpty := fun _ => by simp only [State.haltWith_sp]; omega }

theorem inv_apply {e : Effect} {s : State} (h : s.Inv) (hr : s.run = .running) (he : e.Admissible s) :
    (e.apply s).Inv := by
  cases e with
  | nothing => exact h
  | dump | writeReg d v | branch d => exact { h with }
  | writeResult d r f | writeFlags f => exact { h with flagsConsistent := he }
  | store a v => exact { h with dmemWf := Memory.wf_write h.dmemWf a.isLt }
  | halt c => exact inv_haltWith h he
  | push v => exact inv_push h hr he _ _
  | pop d => exact inv_pop h hr he d _

/-- Settles O21: the fetch keeps the invariant, and so does every effect an instruction can have at a running state. -/
theorem stepKeepsTheInvariant : Obligations.StepKeepsTheInvariant := by
  intro s t hs h
  rcases step_effect_cases h with ⟨hr, rfl⟩ | ⟨-, rfl⟩
  · exact inv_apply (inv_afterFetch hs) hr (effect_admissible _ _)
  · exact hs

/-! ### The invariant at reset and over every run -/

theorem wf_loadImage (lines : List (Word × Word)) : (loadImage lines).wf Config.memorySize = true := by
  have hfold (m : Memory) (hm : m.wf Config.memorySize = true) :
      (lines.foldl (fun m l => m.storeWord l.1 l.2) m).wf Config.memorySize = true := by
    induction lines generalizing m with
    | nil => exact hm
    | cons l lines ih => exact ih _ (Memory.wf_storeWord hm)
  exact hfold [] rfl

theorem inv_reset : State.reset.Inv where
  imemWf := rfl
  dmemWf := rfl
  stkWf := rfl
  depthEven := rfl
  flagsConsistent := rfl
  overflowFull := nofun
  underflowEmpty := nofun

theorem inv_boot {image : Memory} (h : image.wf Config.memorySize = true) : (State.boot image).Inv :=
  { inv_reset with imemWf := h }

/-- Settles O20: every store a program file loads into is canonical, and the rest is at its reset value. -/
theorem resetMeetsTheInvariant : Obligations.ResetMeetsTheInvariant :=
  ⟨inv_reset, fun lines => inv_boot (wf_loadImage lines)⟩

/-- A run of `n + 1` steps is one step and a run of `n`. -/
theorem run_succ {s u : State} (h : step s = .next u) (n : Nat) : core.run (n + 1) s = core.run n u := by
  have hcore : core.step s = .next u := h
  simp only [Host.Core.run, hcore]

/-- What every step keeps holds after any number of steps. -/
theorem run_keeps {P : State → Prop} (hstep : ∀ s t, P s → step s = .next t → P t) (n : Nat) {s t : State}
    (hs : P s) (h : core.run n s = .next t) : P t := by
  induction n generalizing s with
  | zero => exact Host.Outcome.next.inj h ▸ hs
  | succ n ih =>
    obtain ⟨u, hu⟩ := exists_step_eq_next s
    rw [run_succ hu] at h
    exact ih (hstep s u hs hu) h

/-- Settles O22: the invariant holds along the run, and an even depth up to 16 is what the bounds say of the address. -/
theorem stackPointerStaysInBoundsOnEveryRun : Obligations.StackPointerStaysInBoundsOnEveryRun := by
  intro lines n t h
  have hinv : t.Inv := run_keeps stepKeepsTheInvariant n (inv_boot (wf_loadImage lines)) h
  have heven := hinv.depthEven
  have hlt := t.sp.depth.isLt
  obtain ⟨hbase, -⟩ := stackBase_bounds
  rw [StackPointer.addr_toNat]
  omega

/-- Settles O19. -/
theorem resetValues : Obligations.ResetValues := by
  intro image
  have haddr : (State.boot image).sp.addr = Config.stackBase := BitVec.sub_zero _
  have hstk (a : Word) (ha : inStackRegion a = true) : (State.boot image).stkRead a = some 0#8 := if_pos ha
  exact ⟨State.reset_reg, rfl, haddr, rfl, rfl, rfl, fun _ => rfl, hstk, fun _ => rfl, rfl⟩

end Sys2Proof.Machine
end

section
/-! PROOFS, 10_state.md R12, R13, R20, R27, R28: the step, `pc` and the run state. -/

namespace Sys2Proof.Machine

/-- Settles O8: the two bytes at `pc` decode to what the fetched word decodes to. -/
theorem stepRunsTheDecodedInstruction : Obligations.StepRunsTheDecodedInstruction := by
  intro s i hr hdec
  obtain ⟨rfl, -⟩ := DecodeResult.ok.inj hdec
  exact step_running hr

/-- Settles O13, by induction on the number of steps. -/
theorem haltedMachineNeverChanges : Obligations.HaltedMachineNeverChanges := by
  intro s n hs
  induction n with
  | zero => rfl
  | succ n ih => rw [run_succ (step_of_not_running hs), ih]

/-- When a running machine's step halts it, and for what cause. -/
theorem step_halts_iff {s t : State} (hr : s.run = .running) (h : step s = .next t) (c : HaltCause) :
    t.run = .halted c ↔
      (decodeWord s.fetchWord = .halt ∧ c = .clean) ∨
      ((∃ rn, decodeWord s.fetchWord = .push rn) ∧ 14 < s.sp.depth.val ∧ c = .stackOverflow) ∨
      ((∃ rd, decodeWord s.fetchWord = .pop rd) ∧ s.sp.depth.val < 2 ∧ c = .stackUnderflow) := by
  rw [step_eq_effect hr] at h
  obtain rfl := Host.Outcome.next.inj h
  rw [Effect.apply_run, State.afterFetch_run, hr, ← State.afterFetch_sp s, ← effect_haltCause_iff]
  cases ((decodeWord s.fetchWord).effect s.afterFetch).haltCause <;> simp

/-- Settles O14. -/
theorem runStateTransitions : Obligations.RunStateTransitions := by
  intro s t h
  refine ⟨fun hr => ?_, fun hr => ?_⟩
  · rw [step_of_not_running hr] at h
    rw [← Host.Outcome.next.inj h]
  · simp [step_halts_iff hr h]

/-! ### pc -/

/-- The branch family, its condition read off the displacement's low two bits (30_encoding.md R52). -/
theorem decodeBranch_cases (w : Word) :
    ((imm8Of w).toNat % 4 = 0 ∧ decodeBranch w = .jmp (imm8Of w)) ∨
    ((imm8Of w).toNat % 4 = 1 ∧ decodeBranch w = .jeq (imm8Of w)) ∨
    ((imm8Of w).toNat % 4 = 2 ∧ decodeBranch w = .jlt (imm8Of w)) ∨
    ((imm8Of w).toNat % 4 = 3 ∧ decodeBranch w = .jgt (imm8Of w)) := by
  have hmode : (modeOf w).toNat = (imm8Of w).toNat % 4 := by
    simp [modeOf_eq_imm8Of, conditionBits]
  unfold decodeBranch
  rw [hmode]
  split <;> simp_all
  omega

theorem branchTaken_decodeSpecial (w : Word) (f : Flags) : (decodeSpecial w).branchTaken f = false := by
  unfold decodeSpecial
  split <;> rfl

theorem branchTaken_decodeHalt (w : Word) (f : Flags) : (decodeHalt w).branchTaken f = false := by
  unfold decodeHalt
  split
  · rfl
  · split <;> rfl

/-- Only a word of the branch family can be a taken branch (30_encoding.md R54). -/
theorem decodeWord_branch_or_never_taken (w : Word) :
    decodeWord w = decodeBranch w ∨ ∀ f, (decodeWord w).branchTaken f = false := by
  unfold decodeWord
  split
  case h_1 =>
    split
    · exact .inr (branchTaken_decodeSpecial w)
    · exact .inl rfl
  case h_2 | h_3 => split <;> exact .inr fun _ => rfl
  case h_16 => exact .inr (branchTaken_decodeHalt w)
  all_goals exact .inr fun _ => rfl

/-- What a word's effect adds to `pc`: its displacement when it is a branch whose condition holds, else nothing. -/
theorem effect_pcOffset_decodeWord (w : Word) (s : State) :
    ((decodeWord w).effect s).pcOffset = if (decodeWord w).branchTaken s.flags then zext16 (imm8Of w) else 0#16 := by
  split
  case isTrue h =>
    rcases decodeWord_branch_or_never_taken w with hb | hn
    · rw [hb] at h ⊢
      obtain ⟨-, hi⟩ | ⟨-, hi⟩ | ⟨-, hi⟩ | ⟨-, hi⟩ := decodeBranch_cases w <;>
        rw [hi] at h ⊢ <;> simp only [Instr.effect, h, if_true, Effect.pcOffset]
    · exact absurd h (by simp [hn])
  case isFalse h => exact effect_pcOffset_of_not_taken (Bool.eq_false_iff.2 h)

/-- Settles O11. -/
theorem pcAdvancesByTwoAndTakenBranchesOnlyAddImm8 : Obligations.PcAdvancesByTwoAndTakenBranchesOnlyAddImm8 := by
  intro s hr
  refine ⟨_, step_eq_effect hr, ?_⟩
  rw [Effect.apply_pc, effect_pcOffset_decodeWord, State.afterFetch_flags, State.afterFetch_pc]
  split <;> simp [BitVec.toNat_add, zext16_toNat]

/-- The odd branches are those whose displacement is odd (30_encoding.md R52). -/
theorem isOddBranch_iff_of_taken {w : Word} {f : Flags} (h : (decodeWord w).branchTaken f = true) :
    (decodeWord w).isOddBranch = true ↔ (imm8Of w).toNat % 2 = 1 := by
  rcases decodeWord_branch_or_never_taken w with hb | hn
  · rw [hb]
    obtain ⟨hm, hi⟩ | ⟨hm, hi⟩ | ⟨hm, hi⟩ | ⟨hm, hi⟩ := decodeBranch_cases w <;>
      simp only [hi, Instr.isOddBranch, Bool.false_eq_true, true_iff, false_iff] <;> omega
  · exact absurd h (by simp [hn])

/-- Settles O12: 2 and the wrap at 2^16 keep the parity, so only an odd displacement that is added flips it. -/
theorem onlyTakenJeqAndJgtFlipPcParity : Obligations.OnlyTakenJeqAndJgtFlipPcParity := by
  intro s t hr h
  obtain ⟨u, hu, hpc⟩ := pcAdvancesByTwoAndTakenBranchesOnlyAddImm8 s hr
  obtain rfl : u = t := Host.Outcome.next.inj (hu.symm.trans h)
  by_cases ht : (decodeWord s.fetchWord).branchTaken s.flags = true
  · rw [if_pos ht] at hpc
    rw [and_iff_left ht, isOddBranch_iff_of_taken ht]
    omega
  · rw [if_neg ht] at hpc
    refine iff_of_false ?_ (fun hodd => ht hodd.2)
    omega

end Sys2Proof.Machine
end

section
/-! PROOFS, 10_state.md R14, R15, R26: who writes and who reads what. -/

namespace Sys2Proof.Machine

/-- A flag-defining instruction does not read the flags. -/
theorem readsAlike_setFlags {i : Instr} (h : i.definesFlags = true) (s : State) (f : Flags) :
    ReadsAlike i s (s.setFlags f) where
  sources _ _ := rfl
  depth := rfl
  dmem _ := rfl
  flags hn := absurd (hn.symm.trans h) Bool.false_ne_true

/-- No instruction reads `C` or `O` (10_state.md R14). -/
theorem readsAlike_setCarryOverflow (i : Instr) (s : State) (c o : Bool) :
    ReadsAlike i s (s.setFlags ⟨s.flags.z, s.flags.s, c, o⟩) where
  sources _ _ := rfl
  depth := rfl
  dmem _ := rfl
  flags _ := ⟨rfl, rfl⟩

theorem readsAlike_setReg {i : Instr} {q : Reg} (h : q ∉ i.sources) (s : State) (v : Word) :
    ReadsAlike i s (s.setReg q v) where
  sources r hr := by
    have hne : r ≠ q := fun e => h (e ▸ hr)
    simp [hne]
  depth := rfl
  dmem _ := rfl
  flags _ := ⟨rfl, rfl⟩

theorem effect_keeps_flags {i : Instr} (s : State) (h : i.definesFlags = false) :
    ((i.effect s).apply s).flags = s.flags := by
  have hnone : (i.effect s).newFlags = none := by
    rw [← Option.isNone_iff_eq_none, ← Option.not_isSome, effect_newFlags_isSome, h]; rfl
  rw [Effect.apply_flags, hnone]; rfl

/-- Settles O23: a flag-defining instruction has the same effect whatever the flags, and that effect writes all four. -/
theorem flagsAreRecomputedWholesaleOrKept : Obligations.FlagsAreRecomputedWholesaleOrKept := by
  intro i s
  refine ⟨_, exec_eq_effect i s, effect_keeps_flags s, fun hd f => ⟨_, exec_eq_effect i _, ?_⟩⟩
  obtain ⟨g, hg⟩ := Option.isSome_iff_exists.1 ((effect_newFlags_isSome i s).trans hd)
  rw [effect_congr (readsAlike_setFlags hd s f), Effect.apply_flags, Effect.apply_flags, hg]; rfl

theorem effect_haltCause_eq_none {i : Instr} (hpush : ∀ rn, i ≠ .push rn) (hpop : ∀ rd, i ≠ .pop rd) (hhalt : i ≠ .halt)
    (s : State) : (i.effect s).haltCause = none := by
  refine Option.eq_none_iff_forall_ne_some.2 fun c hc => ?_
  rcases (effect_haltCause_iff i s c).1 hc with ⟨h, -⟩ | ⟨⟨rn, h⟩, -⟩ | ⟨⟨rd, h⟩, -⟩
  · exact hhalt h
  · exact hpush rn h
  · exact hpop rd h

/-- Settles O24: each clause is what the instruction's effect leaves. -/
theorem writersOfEachPieceOfState : Obligations.WritersOfEachPieceOfState := by
  intro i s
  refine ⟨_, exec_eq_effect i s, fun r hd => ?reg, ?flags, fun hb => ?pc, Effect.apply_ir _ s, fun a => ?imem,
    fun hpush a => ?stack, fun hpush hpop => ?sp, fun hstr a => ?dmem, fun hpush hpop hhalt => ?run⟩
  case reg => exact Effect.apply_reg_of_ne (effect_destReg_ne hd s) s
  case flags => exact effect_keeps_flags s
  case pc => rw [Effect.apply_pc, effect_pcOffset_of_not_taken hb, BitVec.add_zero]
  case imem => rw [State.fetchByte, Effect.apply_imem]; rfl
  case stack => rw [State.stkRead, Effect.apply_stk (effect_ne_push hpush s)]; rfl
  case sp => exact Effect.apply_sp (effect_ne_push hpush s) (effect_ne_pop hpop s) s
  case dmem => rw [State.memRead, Effect.apply_dmem (effect_ne_store hstr s)]; rfl
  case run => rw [Effect.apply_run, effect_haltCause_eq_none hpush hpop hhalt]; rfl

/-- Settles O25. -/
theorem onlySourceRegistersAreRead : Obligations.OnlySourceRegistersAreRead := by
  intro i s q v hq
  have hcongr : i.effect (s.setReg q v) = i.effect s := effect_congr (readsAlike_setReg hq s v)
  refine ⟨_, _, exec_eq_effect i s, exec_eq_effect i _, fun hd => ?_, fun hd => ?_⟩ <;> rw [hcongr]
  · rcases effect_destReg i s with he | ⟨c, hc⟩
    · exact .inl (apply_setReg_of_dest (he.trans hd) s v)
    · rw [hc]; exact .inr ⟨⟨c, rfl⟩, rfl⟩
  · exact apply_setReg_of_ne (effect_destReg_ne hd s) s v

/-- A step from other values of `C` and `O` performs the same effect. -/
theorem step_setCarryOverflow {s : State} (hr : s.run = .running) (c o : Bool) :
    step (s.setFlags ⟨s.flags.z, s.flags.s, c, o⟩) =
      .next ((((decodeWord s.fetchWord).effect s.afterFetch).apply s.afterFetch).setFlags
        (((decodeWord s.fetchWord).effect s.afterFetch).newFlags.getD ⟨s.flags.z, s.flags.s, c, o⟩)) := by
  have hcongr := effect_congr (readsAlike_setCarryOverflow (decodeWord s.fetchWord) s.afterFetch c o)
  rw [← apply_setFlags, ← hcongr]
  exact step_eq_effect hr

/-- Settles O26: the effect is the same, and it replaces all four flags or carries them along. -/
theorem carryAndOverflowAreNeverRead : Obligations.CarryAndOverflowAreNeverRead := by
  intro s c o
  cases hr : s.run with
  | halted cause => exact ⟨s, _, step_halted hr, step_halted (s := s.setFlags _) hr, rfl, rfl, rfl⟩
  | running =>
    refine ⟨_, _, step_eq_effect hr, step_setCarryOverflow hr c o, rfl, ?_⟩
    simp only [State.setFlags_flags, Effect.apply_flags, State.afterFetch_flags]
    cases ((decodeWord s.fetchWord).effect s.afterFetch).newFlags <;> exact ⟨rfl, rfl⟩

end Sys2Proof.Machine
end

section
/-! PROOFS, 10_state.md R22: canonical stores. -/

namespace Sys2Proof.Machine

/-- A store reads 0 below its first address. -/
theorem read_eq_zero_of_lt {m : Memory} {a : Nat} (h : ∀ c ∈ m, a < c.1) : m.read a = 0#8 := by
  induction m with
  | nil => rfl
  | cons c m ih =>
    obtain ⟨hc, hm⟩ := List.forall_mem_cons.1 h
    rw [Memory.read_cons, if_neg (Nat.ne_of_gt hc)]
    exact ih hm

/-- A canonical store and another that reads alike: the other has a cell at or below the first one's lowest. -/
theorem not_forall_above_head {size k : Nat} {v : Byte} {m n : Memory} (hm : Memory.wf size ((k, v) :: m) = true)
    (hread : ∀ a, a < size → Memory.read ((k, v) :: m) a = n.read a) : ¬ ∀ c ∈ n, k < c.1 := by
  intro habove
  obtain ⟨hk, hv, -, -⟩ := (Memory.wf_cons ..).1 hm
  have hhead := hread k hk
  rw [Memory.read_cons, if_pos rfl, read_eq_zero_of_lt habove] at hhead
  exact hv hhead

/-- Canonical stores that read alike and start at one address start with one cell, and their tails read alike. -/
theorem tails_read_alike {size k : Nat} {v x : Byte} {m n : Memory} (hm : ∀ c ∈ m, k < c.1) (hn : ∀ c ∈ n, k < c.1)
    (hread : ∀ a, a < size → Memory.read ((k, v) :: m) a = Memory.read ((k, x) :: n) a) :
    ∀ a, a < size → m.read a = n.read a := by
  intro a ha
  by_cases hak : k = a
  · subst hak; rw [read_eq_zero_of_lt hm, read_eq_zero_of_lt hn]
  · simpa only [Memory.read_cons, if_neg hak] using hread a ha

/-- Settles O56, by induction on the cells of both stores. -/
theorem canonicalStoresThatReadAlikeAreEqual : Obligations.CanonicalStoresThatReadAlikeAreEqual := by
  intro size m
  induction m with
  | nil =>
    intro n _ hn hread
    cases n with
    | nil => rfl
    | cons d n => exact absurd (List.forall_mem_nil _) (not_forall_above_head hn fun a ha => (hread a ha).symm)
  | cons c m ih =>
    intro n hm hn hread
    cases n with
    | nil => exact absurd (List.forall_mem_nil _) (not_forall_above_head hm hread)
    | cons d n =>
      obtain ⟨k, v⟩ := c
      obtain ⟨j, x⟩ := d
      obtain ⟨hk, -, hmlt, hm'⟩ := (Memory.wf_cons ..).1 hm
      obtain ⟨-, -, hnlt, hn'⟩ := (Memory.wf_cons ..).1 hn
      have hkj : ¬ k < j := fun h => not_forall_above_head hm hread
        (List.forall_mem_cons.2 ⟨h, fun c hc => Nat.lt_trans h (hnlt c hc)⟩)
      have hjk : ¬ j < k := fun h => not_forall_above_head hn (fun a ha => (hread a ha).symm)
        (List.forall_mem_cons.2 ⟨h, fun c hc => Nat.lt_trans h (hmlt c hc)⟩)
      obtain rfl : k = j := by omega
      obtain rfl : v = x := by simpa only [Memory.read_cons, if_true] using hread k hk
      rw [ih n hm' hn' (tails_read_alike hmlt hnlt hread)]

end Sys2Proof.Machine
end

section
/-! PROOFS, 20_memory.md R31, R38, R41, R43, R45: the fetch, instruction memory along a run, reads after writes and the
loaded image. -/

namespace Sys2Proof.Machine

/-! ### The fetch -/

/-- The word a state fetches, as a number (R31, R32). -/
theorem fetchWord_toNat (s : State) :
    s.fetchWord.toNat = (s.imem.read ((s.pc.toNat + 1) % 65536)).toNat * 256 + (s.imem.read s.pc.toNat).toNat := by
  have hwrap : (s.pc + 1#16).toNat = (s.pc.toNat + 1) % 65536 := BitVec.toNat_add ..
  rw [State.fetchWord, joinBytes_toNat, State.fetchByte, State.fetchByte, hwrap]

/-- Settles O10: the fetch writes `ir`, and no effect of an instruction changes it. -/
theorem fetchIsLittleEndianAndWraps : Obligations.FetchIsLittleEndianAndWraps := by
  intro s hr
  refine ⟨_, step_eq_effect hr, ?_⟩
  rw [Effect.apply_ir, State.afterFetch_ir, fetchWord_toNat]

/-! ### Instruction memory along a run -/

theorem step_imem {s t : State} (h : step s = .next t) : t.imem = s.imem := by
  rcases step_effect_cases h with ⟨-, rfl⟩ | ⟨-, rfl⟩
  · rw [Effect.apply_imem, State.afterFetch_imem]
  · rfl

theorem run_imem (n : Nat) {s t : State} (h : core.run n s = .next t) : t.imem = s.imem :=
  run_keeps (P := fun u => u.imem = s.imem) (fun _ _ hu hstep => (step_imem hstep).trans hu) n rfl h

/-- The fetched word depends only on `pc` and on what instruction memory reads as. -/
theorem fetchWord_congr {s t : State} (hpc : t.pc = s.pc) (himem : KeepsImem s t) : t.fetchWord = s.fetchWord := by
  simp only [State.fetchWord, hpc, himem _]

/-- Settles O15: no step writes instruction memory, so along the run the image is the one of the start. -/
theorem fetchNeverSeesAStore : Obligations.FetchNeverSeesAStore := by
  intro n s t h
  have hkeeps : KeepsImem s t := fun a => congrArg (Memory.read · a.toNat) (run_imem n h)
  exact ⟨hkeeps, fun u hpc hu => fetchWord_congr hpc fun a => (hu a).trans (hkeeps a).symm⟩

/-! ### Reads after writes -/

/-- Settles O55, by induction on the writes from the latest back: the latest one is at the address, or it leaves the byte as
the writes before left it. -/
theorem aReadGivesTheLatestWrite : Obligations.AReadGivesTheLatestWrite := by
  intro writes a
  induction writes using List.reverseRecOn with
  | nil => rfl
  | append_singleton writes w ih =>
    rw [List.foldl_concat, Memory.read_write, List.reverse_concat]
    by_cases hw : w.1 = a
    · simp [hw]
    · simp [hw, Ne.symm hw, ih]

/-! ### The loaded image -/

/-- The last line of a program file is stored over what the lines before it left. -/
theorem loadImage_concat (lines : List (Word × Word)) (A V : Word) :
    loadImage (lines ++ [(A, V)]) = (loadImage lines).storeWord A V :=
  List.foldl_concat ..

/-- What instruction memory reads as when a word was stored in it last. -/
theorem fetchByte_of_imem_storeWord {s : State} {m : Memory} {A V : Word} (h : s.imem = m.storeWord A V) (a : Word) :
    s.fetchByte a = if a = A + 1#16 then highByte V else if a = A then lowByte V else m.read a.toNat := by
  simp only [State.fetchByte, h, Memory.read_storeWord, BitVec.toNat_inj]

/-- The two bytes of a word stand at different addresses, also across the wrap at 0xFFFF. -/
theorem word_ne_add_one (A : Word) : A ≠ A + 1#16 := by
  bv_omega

/-- Settles O57: the image is the last line's word stored over what the lines before it left. -/
theorem loadedWordsAreFetched : Obligations.LoadedWordsAreFetched := by
  intro lines A V s himem
  have hread := fetchByte_of_imem_storeWord (himem.trans (loadImage_concat lines A V))
  have hlow : s.fetchByte A = lowByte V := by rw [hread, if_neg (word_ne_add_one A), if_pos rfl]
  have hhigh : s.fetchByte (A + 1#16) = highByte V := by rw [hread, if_pos rfl]
  refine ⟨?_, ?_, fun a hA hA1 => ?_, fun hpc => ?_, fun _ => rfl⟩
  · rw [hlow, lowByte_toNat]
  · rw [hhigh, highByte_toNat]
  · rw [hread, if_neg hA1, if_neg hA]
  · rw [State.fetchWord, hpc, hlow, hhigh, joinBytes_high_low]

end Sys2Proof.Machine
end

section
/-! PROOFS, 30_encoding.md: the decoder against the encoder and the opcode table. The decoder inverts the encoder on canonical
words, and every word encodes what it decodes to (`Encodes`): it has the bits of that instruction's canonical word wherever the
format uses them. The table's rows are disjoint, so a word encodes one instruction only. -/

namespace Sys2Proof
open Machine

/-! ### Fields -/

/-- Settles O1: the opcode alone needs the width of the word, the other fields are remainders as they stand. -/
theorem fieldsStandAtTheirBitPositions : Obligations.FieldsStandAtTheirBitPositions := by
  intro w
  have hop : w.toNat / 4096 < 16 := by have := w.isLt; omega
  simp [opcodeOf, immModeOf, rdOf, rnOf, rmOf, modeOf, imm8Of, Nat.shiftRight_eq_div_pow, Nat.mod_eq_of_lt hop]

/-- A field's value from its number, which is what the decoder's matches give. -/
theorem eq_ofNat_of_toNat_eq {n k : Nat} {x : BitVec n} (h : x.toNat = k) : x = BitVec.ofNat n k := by
  rw [← h, BitVec.ofNat_toNat, BitVec.setWidth_eq]

theorem modeOf_cases (w : Word) : modeOf w = 0#2 ∨ modeOf w = 1#2 ∨ modeOf w = 2#2 ∨ modeOf w = 3#2 := by
  bv_omega

theorem immModeOf_eq_one {w : Word} (h : immModeOf w ≠ 0#1) : immModeOf w = 1#1 := by
  bv_omega

/-- `rm` is `w[2:2]` followed by the mode bits (30_encoding.md R52). -/
theorem rmOf_eq_append_modeOf (w : Word) : (rmOf w).extractLsb' 2 1 ++ modeOf w = rmOf w := by
  rw [modeOf_eq_rmOf]
  exact BitVec.extractLsb'_append_extractLsb' (w := 1) (len := 2)

/-- CMP's second source is one whose low two bits are CMP's mode bits (30_encoding.md R52). -/
theorem wf_cmp_iff (rn rm : Reg) : (Instr.cmp rn rm).wf = true ↔ rm.extractLsb' 2 1 ++ 3#2 = rm := by
  revert rn rm
  decide

/-! ### The decoder on canonical words -/

/-- A well-formed instruction is decoded from its canonical word: the fields are the operands the format was filled with. -/
theorem decodeWord_encode {i : Instr} (hwf : i.wf = true) : decodeWord (encode i) = i := by
  cases i with
  | nop | push | pop => simp [encode, decodeWord, decodeSpecial]
  | cmp rn rm => simp [encode, decodeWord, decodeSpecial, (wf_cmp_iff rn rm).1 hwf]
  | jmp imm8 | jeq imm8 | jlt imm8 | jgt imm8 =>
    have hcond : conditionBits imm8 = _ := eq_of_beq hwf
    simp [encode, decodeWord, decodeBranch, hcond]
  | halt | undImm0 | undMode0 | undMode1 | undMode2 => simp [encode, decodeWord, decodeHalt]
  | _ => simp [encode, decodeWord]

/-- Settles O6: the two bytes join to the canonical word. -/
theorem decodeOfEncodeIsTheInstruction : Obligations.DecodeOfEncodeIsTheInstruction := by
  intro i rest hwf
  calc decode (encodeBytes i ++ rest)
      = .ok (decodeWord (joinBytes (highByte (encode i)) (lowByte (encode i)))) rest := rfl
    _ = .ok i rest := by rw [joinBytes_high_low, decodeWord_encode hwf]

/-- Settles O7. -/
theorem workedWordsDecode : Obligations.WorkedWordsDecode := by
  unfold Obligations.WorkedWordsDecode
  decide

/-! ### Fields as masks -/

/-- The bits `lo .. lo + len - 1` of a word. -/
def fieldMask (lo len : Nat) : Word := (BitVec.allOnes len).setWidth 16 <<< lo

theorem getLsbD_fieldMask {lo len : Nat} (hle : lo + len ≤ 16) (j : Nat) :
    (fieldMask lo len).getLsbD j = decide (lo ≤ j ∧ j < lo + len) := by
  simp only [fieldMask, BitVec.getLsbD_shiftLeft, BitVec.getLsbD_setWidth, BitVec.getLsbD_allOnes]
  grind

/-- Two words agree under a field's mask exactly when they have the field alike. -/
theorem and_fieldMask_eq_iff {lo len : Nat} (hle : lo + len ≤ 16) (w v : Word) :
    w &&& fieldMask lo len = v &&& fieldMask lo len ↔ w.extractLsb' lo len = v.extractLsb' lo len := by
  constructor <;> intro h <;> apply BitVec.eq_of_getLsbD_eq <;> intro j hj
  · have hbit := congrArg (BitVec.getLsbD · (lo + j)) h
    simpa [getLsbD_fieldMask hle, hj] using hbit
  · have hbit := congrArg (BitVec.getLsbD · (j - lo)) h
    by_cases hin : lo ≤ j ∧ j < lo + len
    · have hlen : j - lo < len := by omega
      simpa [getLsbD_fieldMask hle, hin, hlen] using hbit
    · simp [getLsbD_fieldMask hle, hin]

theorem and_eq_of_and_or_eq {w v a b : Word} (h : w &&& (a ||| b) = v &&& (a ||| b)) : w &&& a = v &&& a := by
  have habsorb : (a ||| b) &&& a = a := by ext; grind
  calc w &&& a
      = w &&& (a ||| b) &&& a := by rw [BitVec.and_assoc, habsorb]
    _ = v &&& (a ||| b) &&& a := by rw [h]
    _ = v &&& a := by rw [BitVec.and_assoc, habsorb]

/-- Two words agree under a union of masks exactly when they agree under each. -/
@[simp] theorem and_or_eq_iff (w v a b : Word) :
    w &&& (a ||| b) = v &&& (a ||| b) ↔ w &&& a = v &&& a ∧ w &&& b = v &&& b := by
  constructor
  · intro h
    exact ⟨and_eq_of_and_or_eq h, and_eq_of_and_or_eq (b := a) (by rwa [BitVec.or_comm b])⟩
  · rintro ⟨ha, hb⟩
    rw [BitVec.and_or_distrib_left, BitVec.and_or_distrib_left, ha, hb]

/-! The fields of 30_encoding.md R51. -/

def opcodeMask : Word := fieldMask 12 4
def immModeMask : Word := fieldMask 11 1
def rdMask : Word := fieldMask 8 3
def rnMask : Word := fieldMask 5 3
def rmMask : Word := fieldMask 0 3
def modeMask : Word := fieldMask 0 2
def imm8Mask : Word := fieldMask 0 8

section
variable (w v : Word)

@[simp] theorem and_opcodeMask_eq_iff : w &&& opcodeMask = v &&& opcodeMask ↔ opcodeOf w = opcodeOf v :=
  and_fieldMask_eq_iff (by decide) w v
@[simp] theorem and_immModeMask_eq_iff : w &&& immModeMask = v &&& immModeMask ↔ immModeOf w = immModeOf v :=
  and_fieldMask_eq_iff (by decide) w v
@[simp] theorem and_rdMask_eq_iff : w &&& rdMask = v &&& rdMask ↔ rdOf w = rdOf v :=
  and_fieldMask_eq_iff (by decide) w v
@[simp] theorem and_rnMask_eq_iff : w &&& rnMask = v &&& rnMask ↔ rnOf w = rnOf v :=
  and_fieldMask_eq_iff (by decide) w v
@[simp] theorem and_rmMask_eq_iff : w &&& rmMask = v &&& rmMask ↔ rmOf w = rmOf v :=
  and_fieldMask_eq_iff (by decide) w v
@[simp] theorem and_modeMask_eq_iff : w &&& modeMask = v &&& modeMask ↔ modeOf w = modeOf v :=
  and_fieldMask_eq_iff (by decide) w v
@[simp] theorem and_imm8Mask_eq_iff : w &&& imm8Mask = v &&& imm8Mask ↔ imm8Of w = imm8Of v :=
  and_fieldMask_eq_iff (by decide) w v

end

/-- The fields that an instruction's format fixes or reads (30_encoding.md R53), as one mask. -/
@[simp] def Instr.usedMask : Instr → Word
  | .nop | .halt | .undMode0 | .undMode1 | .undMode2 => opcodeMask ||| immModeMask ||| modeMask
  | .push _ => opcodeMask ||| immModeMask ||| rnMask ||| modeMask
  | .pop _ => opcodeMask ||| immModeMask ||| rdMask ||| modeMask
  | .cmp _ _ => opcodeMask ||| immModeMask ||| rnMask ||| rmMask
  | .jmp _ | .jeq _ | .jlt _ | .jgt _ | .strImm _ => opcodeMask ||| immModeMask ||| imm8Mask
  | .movReg _ _ => opcodeMask ||| immModeMask ||| rdMask ||| rmMask
  | .movImm _ _ => opcodeMask ||| immModeMask ||| rdMask ||| imm8Mask
  | .strReg _ _ => opcodeMask ||| immModeMask ||| rdMask ||| rnMask
  | .ldr _ _ => opcodeMask ||| rdMask ||| rmMask
  | .add _ _ _ | .sub _ _ _ | .mul _ _ _ | .andR _ _ _ | .orr _ _ _ | .xorR _ _ _ =>
    opcodeMask ||| rdMask ||| rnMask ||| rmMask
  | .notR _ _ | .shr _ _ | .shl _ _ | .ror _ _ | .rol _ _ => opcodeMask ||| rdMask ||| rnMask
  | .undImm0 => opcodeMask ||| immModeMask

/-! ### The rows of the opcode table -/

/-- Every instruction has a row, and the bits the row uses are the fields of the instruction's format. -/
theorem exists_row (i : Instr) : ∃ row, opcodeRows[i.row]? = some row ∧ row.used = i.usedMask := by
  cases i <;> exact ⟨_, rfl, rfl⟩

theorem used_of_row {i : Instr} {row : OpcodeRow} (hrow : opcodeRows[i.row]? = some row) : row.used = i.usedMask := by
  obtain ⟨row', hrow', hused⟩ := exists_row i
  rwa [Option.some.inj (hrow.symm.trans hrow')]

/-- A row uses every bit it fixes. -/
theorem used_and_mask {row : OpcodeRow} (h : row ∈ opcodeRows) : row.used &&& row.mask = row.mask := by
  revert row
  decide

/-- Any two rows ask for different values of the bits that both of them fix. -/
theorem opcodeRows_disjoint : opcodeRows.Pairwise fun a b => a.value &&& b.mask ≠ b.value &&& a.mask := by
  decide

/-- No word satisfies the conditions of two rows (30_encoding.md R54). -/
theorem row_unique {w : Word} {j k : Nat} {a b : OpcodeRow} (ha : opcodeRows[j]? = some a) (hb : opcodeRows[k]? = some b)
    (hwa : w &&& a.mask = a.value) (hwb : w &&& b.mask = b.value) : j = k := by
  have hcommon : a.value &&& b.mask = b.value &&& a.mask := by
    rw [← hwa, ← hwb, BitVec.and_assoc, BitVec.and_assoc, BitVec.and_comm a.mask]
  obtain ⟨hj, rfl⟩ := List.getElem?_eq_some_iff.1 ha
  obtain ⟨hk, rfl⟩ := List.getElem?_eq_some_iff.1 hb
  have hpair := List.pairwise_iff_getElem.1 opcodeRows_disjoint
  rcases Nat.lt_trichotomy j k with h | h | h
  · exact absurd hcommon (hpair j k hj hk h)
  · exact h
  · exact absurd hcommon.symm (hpair k j hk hj h)

/-- The family EncodeFits, for every instruction. -/
theorem encodeFits (i : Instr) : Laws.EncodeFits.Statement i :=
  match i with
  | .nop => Laws.EncodeFits.nop
  | .push rn => Laws.EncodeFits.push rn
  | .pop rd => Laws.EncodeFits.pop rd
  | .cmp rn rm => Laws.EncodeFits.cmp rn rm
  | .jmp imm8 => Laws.EncodeFits.jmp imm8
  | .jeq imm8 => Laws.EncodeFits.jeq imm8
  | .jlt imm8 => Laws.EncodeFits.jlt imm8
  | .jgt imm8 => Laws.EncodeFits.jgt imm8
  | .movReg rd rm => Laws.EncodeFits.movReg rd rm
  | .movImm rd imm8 => Laws.EncodeFits.movImm rd imm8
  | .strReg rd rn => Laws.EncodeFits.strReg rd rn
  | .strImm imm8 => Laws.EncodeFits.strImm imm8
  | .ldr rd rm => Laws.EncodeFits.ldr rd rm
  | .add rd rn rm => Laws.EncodeFits.add rd rn rm
  | .sub rd rn rm => Laws.EncodeFits.sub rd rn rm
  | .mul rd rn rm => Laws.EncodeFits.mul rd rn rm
  | .andR rd rn rm => Laws.EncodeFits.andR rd rn rm
  | .orr rd rn rm => Laws.EncodeFits.orr rd rn rm
  | .notR rd rn => Laws.EncodeFits.notR rd rn
  | .xorR rd rn rm => Laws.EncodeFits.xorR rd rn rm
  | .shr rd rn => Laws.EncodeFits.shr rd rn
  | .shl rd rn => Laws.EncodeFits.shl rd rn
  | .ror rd rn => Laws.EncodeFits.ror rd rn
  | .rol rd rn => Laws.EncodeFits.rol rd rn
  | .halt => Laws.EncodeFits.halt
  | .undImm0 => Laws.EncodeFits.undImm0
  | .undMode0 => Laws.EncodeFits.undMode0
  | .undMode1 => Laws.EncodeFits.undMode1
  | .undMode2 => Laws.EncodeFits.undMode2

/-! ### The words that encode an instruction -/

/-- `w` encodes `i`: `i` is well formed, and `w` has the bits of its canonical word wherever its format uses them. -/
structure Encodes (w : Word) (i : Instr) : Prop where
  wf : i.wf = true
  agrees : encode i &&& i.usedMask = w &&& i.usedMask

theorem encodes_decodeSpecial {w : Word} (hop : opcodeOf w = 0#4) (himm : immModeOf w = 0#1) :
    Encodes w (decodeSpecial w) := by
  obtain hmode | hmode | hmode | hmode := modeOf_cases w <;> simp only [decodeSpecial, hmode]
  case inr.inr.inr =>
    have hrm : (rmOf w).extractLsb' 2 1 ++ 3#2 = rmOf w := hmode ▸ rmOf_eq_append_modeOf w
    exact ⟨(wf_cmp_iff _ _).2 hrm, by simp [encode, hop, himm, hrm]⟩
  all_goals exact ⟨rfl, by simp [encode, hop, himm, hmode]⟩

theorem encodes_decodeBranch {w : Word} (hop : opcodeOf w = 0#4) (himm : immModeOf w = 1#1) :
    Encodes w (decodeBranch w) := by
  have hcond := modeOf_eq_imm8Of w
  obtain hmode | hmode | hmode | hmode := modeOf_cases w <;> simp only [decodeBranch, hmode] <;>
    exact ⟨beq_iff_eq.2 (hcond.symm.trans hmode), by simp [encode, hop, himm]⟩

theorem encodes_decodeHalt {w : Word} (hop : opcodeOf w = 15#4) : Encodes w (decodeHalt w) := by
  by_cases himm : immModeOf w = 0#1
  · rw [decodeHalt, if_pos himm]
    exact ⟨rfl, by simp [encode, hop, himm]⟩
  · rw [decodeHalt, if_neg himm]
    obtain hmode | hmode | hmode | hmode := modeOf_cases w <;> simp only [hmode] <;>
      exact ⟨rfl, by simp [encode, hop, immModeOf_eq_one himm, hmode]⟩

/-- Every word encodes the instruction it decodes to, by the decoder's selection (30_encoding.md R54). -/
theorem encodes_decodeWord (w : Word) : Encodes w (decodeWord w) := by
  unfold decodeWord
  split
  case h_1 hop =>
    have hop := eq_ofNat_of_toNat_eq hop
    split
    case isTrue himm => exact encodes_decodeSpecial hop himm
    case isFalse himm => exact encodes_decodeBranch hop (immModeOf_eq_one himm)
  case h_2 hop | h_3 hop =>
    have hop := eq_ofNat_of_toNat_eq hop
    split
    case isTrue himm => exact ⟨rfl, by simp [encode, hop, himm]⟩
    case isFalse himm => exact ⟨rfl, by simp [encode, hop, immModeOf_eq_one himm]⟩
  case h_16 =>
    simp only [imp_false] at *
    exact encodes_decodeHalt (by bv_omega)
  all_goals
    next hop => exact ⟨rfl, by simp [encode, eq_ofNat_of_toNat_eq hop]⟩

namespace Encodes

section
variable {w : Word} {i : Instr} (h : Encodes w i) {row : OpcodeRow} (hrow : opcodeRows[i.row]? = some row)
include h hrow

/-- The canonical word is any word that encodes the instruction, its ignored bits cleared. -/
theorem encode_eq : encode i = w &&& row.used := by
  rw [← (encodeFits i h.wf row hrow).2, used_of_row hrow, h.agrees]

theorem fits_row : w &&& row.mask = row.value := by
  rw [← (encodeFits i h.wf row hrow).1, h.encode_eq hrow, BitVec.and_assoc, used_and_mask (List.mem_of_getElem? hrow)]

end

/-- A word decodes to the one instruction it encodes: two would share the row, so the canonical word. -/
theorem decodeWord_eq {w : Word} {i : Instr} (h : Encodes w i) : decodeWord w = i := by
  have hw := encodes_decodeWord w
  obtain ⟨row, hrow, -⟩ := exists_row i
  obtain ⟨row', hrow', -⟩ := exists_row (decodeWord w)
  have hsame : (decodeWord w).row = i.row := row_unique hrow' hrow (hw.fits_row hrow') (h.fits_row hrow)
  calc decodeWord w
      = decodeWord (encode (decodeWord w)) := (decodeWord_encode hw.wf).symm
    _ = decodeWord (encode i) := by rw [h.encode_eq hrow, hw.encode_eq (hsame ▸ hrow)]
    _ = i := decodeWord_encode h.wf

end Encodes

/-- Settles O3. -/
theorem everyWordDecodesWellFormed : Obligations.EveryWordDecodesWellFormed :=
  fun w => (encodes_decodeWord w).wf

/-- Settles O5. -/
theorem encodingADecodedWordClearsItsIgnoredBits : Obligations.EncodingADecodedWordClearsItsIgnoredBits :=
  fun w _ hrow => (encodes_decodeWord w).encode_eq hrow

/-- Settles O2: a word satisfies the conditions of the row it decodes to, and of no other row. -/
theorem decodeSelectsByMaskAndMatch : Obligations.DecodeSelectsByMaskAndMatch := by
  intro w k row hrow
  have hw := encodes_decodeWord w
  constructor
  · intro hfits
    obtain ⟨row', hrow', -⟩ := exists_row (decodeWord w)
    exact row_unique hrow' hrow (hw.fits_row hrow') hfits
  · rintro rfl
    exact hw.fits_row hrow

/-- Settles O4: a word that agrees with `w` on the used bits encodes what `w` encodes. -/
theorem ignoredBitsHaveNoEffect : Obligations.IgnoredBitsHaveNoEffect := by
  intro w v row hrow hv
  have hw := encodes_decodeWord w
  have hencodes : Encodes v (decodeWord w) := ⟨hw.wf, by rw [hw.agrees, ← used_of_row hrow, hv]⟩
  exact hencodes.decodeWord_eq

/-! ### The step -/

/-- Settles O9. -/
theorem everyStepAnswersANextState : Obligations.EveryStepAnswersANextState := exists_step_eq_next

end Sys2Proof
end

section
/-! PROOFS, 40_move_load_store.md R70 to R74: which words are moves, loads and stores, what a register write and a one-byte
store leave, and the five instructions. -/

namespace Sys2Proof.Machine

/-! ### The words (30_encoding.md R54) -/

section
variable {w : Word}

/-- Opcode 0001: `I` chooses between MOV's two forms. -/
theorem decodeWord_of_opcode_one (hop : opcodeOf w = 1#4) :
    decodeWord w = if immModeOf w = 0#1 then .movReg (rdOf w) (rmOf w) else .movImm (rdOf w) (imm8Of w) := by
  simp [decodeWord, hop]

/-- Opcode 0010: `I` chooses between STR's two forms. -/
theorem decodeWord_of_opcode_two (hop : opcodeOf w = 2#4) :
    decodeWord w = if immModeOf w = 0#1 then .strReg (rdOf w) (rnOf w) else .strImm (imm8Of w) := by
  simp [decodeWord, hop]

/-- Opcode 0011: LDR, whatever `I` is. -/
theorem decodeWord_of_opcode_three (hop : opcodeOf w = 3#4) : decodeWord w = .ldr (rdOf w) (rmOf w) := by
  simp [decodeWord, hop]

end

/-! ### What a register write and a one-byte store leave -/

theorem setReg_reg_same (s : State) (d : Reg) (v : Word) : (s.setReg d v).reg d = v :=
  (State.setReg_reg ..).trans (if_pos rfl)

theorem keepsRegsBut_setReg (d : Reg) (v : Word) (s : State) : KeepsRegsBut d s (s.setReg d v) := fun _ hr =>
  (State.setReg_reg ..).trans (if_neg hr)

theorem onlyWritesReg_setReg (d : Reg) (v : Word) (s : State) : OnlyWritesReg d s (s.setReg d v) :=
  ⟨keepsRegsBut_setReg d v s, rfl, rfl, ⟨rfl, rfl⟩, ⟨rfl, rfl⟩, ⟨fun _ => rfl, fun _ => rfl, fun _ => rfl⟩⟩

theorem memWrite_memRead_same (s : State) (a : Word) (v : Byte) : (s.memWrite a v).memRead a = v :=
  (State.memWrite_memRead ..).trans (if_pos rfl)

theorem memWrite_memRead_of_ne {a b : Word} (h : b ≠ a) (s : State) (v : Byte) :
    (s.memWrite a v).memRead b = s.memRead b :=
  (State.memWrite_memRead ..).trans (if_neg h)

/-! ### Operands -/

/-- STR's immediate form names the register whose index is its constant's top three bits (R73). -/
theorem eq_strImmDest_of_toNat {rk : Reg} {imm8 : BitVec 8} (h : rk.toNat = imm8.toNat / 32) : rk = strImmDest imm8 := by
  have hlt : imm8.toNat / 32 < 8 := by have := imm8.isLt; omega
  apply BitVec.eq_of_toNat_eq
  simp [h, strImmDest, Nat.shiftRight_eq_div_pow, Nat.mod_eq_of_lt hlt]

theorem strByte_toNat (rd : Reg) (s : State) : (strByte rd s).toNat = (s.reg rd).toNat % 256 :=
  lowByte_toNat _

/-! ### The five instructions -/

/-- Settles O27: the source is read before the register is written, so `rd = rm` is no exception. -/
theorem movRegisterCopiesTheSource : Obligations.MovRegisterCopiesTheSource := by
  refine ⟨fun w hw => ?_, fun rd rm s => ⟨_, exec_movReg rd rm s, setReg_reg_same .., onlyWritesReg_setReg ..⟩⟩
  obtain ⟨hop, himm⟩ := (and_F800_fields w 1#4 0#1).1 hw
  exact (decodeWord_of_opcode_one hop).trans (if_pos himm)

/-- Settles O28. -/
theorem movImmediateLoadsTheZeroExtendedConstant : Obligations.MovImmediateLoadsTheZeroExtendedConstant := by
  refine ⟨fun w hw => ?_, fun rd imm8 s => ⟨_, exec_movImm rd imm8 s, ?_, onlyWritesReg_setReg ..⟩⟩
  · obtain ⟨hop, himm⟩ := (and_F800_fields w 1#4 1#1).1 hw
    exact (decodeWord_of_opcode_one hop).trans (if_neg (by simp [himm]))
  · rw [setReg_reg_same, zext16_toNat]

/-- Settles O29: the register with the index `imm8[7:5]` is the one the instruction writes. -/
theorem strImmediateWritesTheRegisterItsTopBitsName : Obligations.StrImmediateWritesTheRegisterItsTopBitsName := by
  refine ⟨fun w hw => ?_, fun imm8 s => ⟨_, exec_strImm imm8 s, fun rk hrk => ?_⟩⟩
  · obtain ⟨hop, himm⟩ := (and_F800_fields w 2#4 1#1).1 hw
    exact (decodeWord_of_opcode_two hop).trans (if_neg (by simp [himm]))
  · obtain rfl := eq_strImmDest_of_toNat hrk
    exact ⟨by rw [setReg_reg_same, zext16_toNat], onlyWritesReg_setReg ..⟩

/-- Settles O30: a data-memory write is read back at its address only, and is no other piece of state. -/
theorem strRegisterStoresOneByte : Obligations.StrRegisterStoresOneByte := by
  refine ⟨fun w hw => ?_, fun rd rn s => ⟨_, exec_strReg rd rn s, ?_, fun _ => rfl, rfl, rfl, ⟨rfl, rfl⟩, ⟨rfl, rfl⟩,
    fun _ => rfl, fun _ => rfl⟩⟩
  · obtain ⟨hop, himm⟩ := (and_F800_fields w 2#4 0#1).1 hw
    exact (decodeWord_of_opcode_two hop).trans (if_pos himm)
  · rintro a rfl
    exact ⟨rfl, by rw [memWrite_memRead_same, strByte_toNat], fun b hb => memWrite_memRead_of_ne hb s _⟩

/-- Settles O31: the byte comes from the state before the write, so `rd = rm` is no exception. -/
theorem ldrLoadsOneByteZeroExtended : Obligations.LdrLoadsOneByteZeroExtended := by
  refine ⟨fun w hw => ?_, fun rd rm s => ⟨_, exec_ldr rd rm s, ?_, onlyWritesReg_setReg ..⟩⟩
  · exact decodeWord_of_opcode_three ((and_F000_fields w 3#4).1 hw)
  · rw [setReg_reg_same, zext16_toNat, ldrAddress]

/-- STR keeps the address register, so an LDR through the same register reads the byte STR wrote (R74, R152). -/
theorem execSeq_strReg_ldr (rd rn d : Reg) (s : State) : execSeq [.strReg rd rn, .ldr d rn] s =
    .next ((s.memWrite (s.reg rn) (strByte rd s)).setReg d (zext16 (strByte rd s))) := by
  simp only [execSeq, exec_strReg, exec_ldr, strAddress, ldrAddress, State.memWrite_reg, memWrite_memRead_same]

/-- Settles O32. -/
theorem loadAfterStoreGivesTheLowByte : Obligations.LoadAfterStoreGivesTheLowByte := fun rd rn d s =>
  ⟨_, execSeq_strReg_ldr rd rn d s, by rw [setReg_reg_same, zext16_toNat, strByte_toNat]⟩

end Sys2Proof.Machine
end

section
/-! PROOFS, 41_arithmetic.md R81 to R83: which words are ADD, SUB and MUL, what writing a result with its flags leaves, the
flag functions of R80 as numbers, and the three instructions. -/

namespace Sys2Proof.Machine

/-! ### The words (30_encoding.md R54) -/

section
variable {w : Word}

/-- Opcode 0100: ADD, whatever `I` is. -/
theorem decodeWord_of_opcode_four (hop : opcodeOf w = 4#4) : decodeWord w = .add (rdOf w) (rnOf w) (rmOf w) := by
  simp [decodeWord, hop]

/-- Opcode 0101: SUB, whatever `I` is. -/
theorem decodeWord_of_opcode_five (hop : opcodeOf w = 5#4) : decodeWord w = .sub (rdOf w) (rnOf w) (rmOf w) := by
  simp [decodeWord, hop]

/-- Opcode 0110: MUL, whatever `I` is. -/
theorem decodeWord_of_opcode_six (hop : opcodeOf w = 6#4) : decodeWord w = .mul (rdOf w) (rnOf w) (rmOf w) := by
  simp [decodeWord, hop]

end

/-! ### What writing a result with its flags leaves -/

theorem writeResult_reg_same (s : State) (d : Reg) (r : Word) (f : Flags) : (s.writeResult d r f).reg d = r :=
  setReg_reg_same s d r

theorem onlyWritesRegAndFlags_writeResult (d : Reg) (r : Word) (f : Flags) (s : State) :
    OnlyWritesRegAndFlags d s (s.writeResult d r f) :=
  ⟨keepsRegsBut_setReg d r s, rfl, ⟨rfl, rfl⟩, ⟨rfl, rfl⟩, ⟨fun _ => rfl, fun _ => rfl, fun _ => rfl⟩⟩

/-! ### The flag functions as numbers (R80) -/

theorem logicFlags_flagsOfResult (r : Word) : LogicFlags r (flagsOfResult r) :=
  ⟨zf_iff r, sf_iff r, rfl, rfl⟩

theorem addC_iff (a b : Word) : addC a b = true ↔ 65535 < a.toNat + b.toNat := decide_eq_true_iff

theorem subC_iff (a b : Word) : subC a b = true ↔ a.toNat < b.toNat := decide_eq_true_iff

/-- A difference is zero exactly when its operands are equal. -/
theorem zf_sub_iff (a b : Word) : zf (a - b) = true ↔ a = b := decide_eq_true_iff.trans sub_eq_zero

/-- R80's sign formula for a sum is the library's signed overflow. -/
theorem addO_eq_saddOverflow (a b : Word) : addO a b = a.saddOverflow b := (BitVec.saddOverflow_eq a b).symm

/-- R80's sign formula for a difference is the library's signed overflow. -/
theorem subO_eq_ssubOverflow (a b : Word) : subO a b = a.ssubOverflow b := by
  rw [BitVec.ssubOverflow_eq, subO]
  cases a.msb <;> cases b.msb <;> simp

/-- `O` of a sum: the two's-complement sum is no 16-bit number. -/
theorem addO_iff (a b : Word) : addO a b = true ↔ ¬ (-32768 ≤ a.toInt + b.toInt ∧ a.toInt + b.toInt ≤ 32767) := by
  rw [addO_eq_saddOverflow]
  simp only [BitVec.saddOverflow, Bool.or_eq_true, decide_eq_true_eq]
  omega

/-- `O` of a difference: the two's-complement difference is no 16-bit number. -/
theorem subO_iff (a b : Word) : subO a b = true ↔ ¬ (-32768 ≤ a.toInt - b.toInt ∧ a.toInt - b.toInt ≤ 32767) := by
  rw [subO_eq_ssubOverflow]
  simp only [BitVec.ssubOverflow, Bool.or_eq_true, decide_eq_true_eq]
  omega

/-- A word difference is the integer difference modulo 2^16, also when it borrows. -/
theorem sub_toNat_cast (a b : Word) : ((a - b).toNat : Int) = (a.toNat - b.toNat : Int) % 65536 := by
  have hb := b.isLt
  rw [BitVec.toNat_sub]
  omega

/-! ### The three instructions -/

/-- Settles O33: the operands come from the state before the write, so `rd` may be a source. -/
theorem addGivesTheSumAndItsFlags : Obligations.AddGivesTheSumAndItsFlags := by
  refine ⟨fun w hw => decodeWord_of_opcode_four ((and_F000_fields w 4#4).1 hw), fun rd rn rm s =>
    ⟨_, exec_add rd rn rm s, ?_⟩⟩
  rw [writeResult_reg_same]
  exact ⟨BitVec.toNat_add .., zf_iff _, sf_iff _, addC_iff .., addO_iff .., onlyWritesRegAndFlags_writeResult ..⟩

/-- Settles O34: the operands come from the state before the write, so `rd` may be a source. -/
theorem subGivesTheDifferenceAndItsFlags : Obligations.SubGivesTheDifferenceAndItsFlags := by
  refine ⟨fun w hw => decodeWord_of_opcode_five ((and_F000_fields w 5#4).1 hw), fun rd rn rm s =>
    ⟨_, exec_sub rd rn rm s, ?_⟩⟩
  rw [writeResult_reg_same]
  exact ⟨sub_toNat_cast .., zf_sub_iff .., sf_iff _, subC_iff .., subO_iff .., onlyWritesRegAndFlags_writeResult ..⟩

/-- Settles O35. -/
theorem mulGivesTheLowHalfOfTheProduct : Obligations.MulGivesTheLowHalfOfTheProduct := by
  refine ⟨fun w hw => decodeWord_of_opcode_six ((and_F000_fields w 6#4).1 hw), fun rd rn rm s =>
    ⟨_, exec_mul rd rn rm s, ?_⟩⟩
  rw [writeResult_reg_same]
  exact ⟨BitVec.toNat_mul .., logicFlags_flagsOfResult _, onlyWritesRegAndFlags_writeResult ..⟩

end Sys2Proof.Machine
end

section
/-! PROOFS, 42_logic_shift_rotate.md R90 to R98: which words are logic, shift and rotate instructions, what the flag policy of
R98 makes of a result, the one-place moves bit by bit, and the eight instructions. -/

namespace Sys2Proof.Machine

/-! ### The words (30_encoding.md R54) -/

section
variable {w : Word}

/-- Opcode 0111: AND, whatever `I` is. -/
theorem decodeWord_of_opcode_seven (hop : opcodeOf w = 7#4) : decodeWord w = .andR (rdOf w) (rnOf w) (rmOf w) := by
  simp [decodeWord, hop]

/-- Opcode 1000: ORR, whatever `I` is. -/
theorem decodeWord_of_opcode_eight (hop : opcodeOf w = 8#4) : decodeWord w = .orr (rdOf w) (rnOf w) (rmOf w) := by
  simp [decodeWord, hop]

/-- Opcode 1001: NOT, whatever `I` and `rm` are. -/
theorem decodeWord_of_opcode_nine (hop : opcodeOf w = 9#4) : decodeWord w = .notR (rdOf w) (rnOf w) := by
  simp [decodeWord, hop]

/-- Opcode 1010: XOR, whatever `I` is. -/
theorem decodeWord_of_opcode_ten (hop : opcodeOf w = 10#4) : decodeWord w = .xorR (rdOf w) (rnOf w) (rmOf w) := by
  simp [decodeWord, hop]

/-- Opcode 1011: SHR, whatever `I` and `rm` are. -/
theorem decodeWord_of_opcode_eleven (hop : opcodeOf w = 11#4) : decodeWord w = .shr (rdOf w) (rnOf w) := by
  simp [decodeWord, hop]

/-- Opcode 1100: SHL, whatever `I` and `rm` are. -/
theorem decodeWord_of_opcode_twelve (hop : opcodeOf w = 12#4) : decodeWord w = .shl (rdOf w) (rnOf w) := by
  simp [decodeWord, hop]

/-- Opcode 1101: ROR, whatever `I` and `rm` are. -/
theorem decodeWord_of_opcode_thirteen (hop : opcodeOf w = 13#4) : decodeWord w = .ror (rdOf w) (rnOf w) := by
  simp [decodeWord, hop]

/-- Opcode 1110: ROL, whatever `I` and `rm` are. -/
theorem decodeWord_of_opcode_fourteen (hop : opcodeOf w = 14#4) : decodeWord w = .rol (rdOf w) (rnOf w) := by
  simp [decodeWord, hop]

end

/-! ### The flag policy of R98 -/

theorem zf_eq_decide_toNat (r : Word) : zf r = decide (r.toNat = 0) := by
  rw [Bool.eq_iff_iff, zf_iff, decide_eq_true_iff]

theorem sf_eq_getLsbD (r : Word) : sf r = r.getLsbD 15 := BitVec.msb_eq_getLsbD_last r

/-- The write-back of R98, read at the register it wrote, and its frame. -/
theorem logicFlags_and_frame_writeResult (d : Reg) (r : Word) (s : State) :
    LogicFlags ((s.writeResult d r (flagsOfResult r)).reg d) (s.writeResult d r (flagsOfResult r)).flags ∧
      OnlyWritesRegAndFlags d s (s.writeResult d r (flagsOfResult r)) := by
  rw [writeResult_reg_same]
  exact ⟨logicFlags_flagsOfResult r, onlyWritesRegAndFlags_writeResult ..⟩

/-- Each of the six instructions ends in the write-back of R98, with a result of its own. -/
theorem exec_logic_eq_writeResult {rd rn rm : Reg} {i : Instr} (s : State)
    (hi : i ∈ [Instr.andR rd rn rm, .orr rd rn rm, .notR rd rn, .xorR rd rn rm, .shr rd rn, .shl rd rn]) :
    ∃ r, exec i s = .next (s.writeResult rd r (flagsOfResult r)) := by
  simp only [List.mem_cons, List.not_mem_nil, or_false] at hi
  rcases hi with rfl | rfl | rfl | rfl | rfl | rfl
  · exact ⟨_, exec_andR ..⟩
  · exact ⟨_, exec_orr ..⟩
  · exact ⟨_, exec_notR ..⟩
  · exact ⟨_, exec_xorR ..⟩
  · exact ⟨_, exec_shr ..⟩
  · exact ⟨_, exec_shl ..⟩

/-! ### One-place moves, bit by bit -/

/-- SHR moves a 0 into bit 15 (R94). -/
theorem sf_shiftRightOne (v : Word) : sf (shiftRightOne v) = false := by
  rw [sf_eq_getLsbD, shiftRightOne, BitVec.getLsbD_append]
  rfl

/-- SHL moves bit 14 into bit 15 (R95). -/
theorem sf_shiftLeftOne (v : Word) : sf (shiftLeftOne v) = v.getLsbD 14 := by
  rw [sf_eq_getLsbD, shiftLeftOne, BitVec.getLsbD_append, BitVec.getLsbD_extractLsb']
  rfl

/-- ROR takes bit `k` from the place above it, bit 15 from bit 0 (R96). -/
theorem getLsbD_rotateRightOne (v : Word) {k : Nat} (hk : k < 16) :
    (rotateRightOne v).getLsbD k = v.getLsbD ((k + 1) % 16) := by
  rw [rotateRightOne, BitVec.getLsbD_append, BitVec.getLsbD_extractLsb', BitVec.getLsbD_extractLsb']
  rcases Nat.lt_or_ge k 15 with h | h
  · have hmod : (k + 1) % 16 = 1 + k := by omega
    simp [h, hmod]
  · obtain rfl : k = 15 := by omega
    simp

/-- ROL takes bit 0 from bit 15, every other bit from the place below it (R97). -/
theorem getLsbD_rotateLeftOne (v : Word) {k : Nat} (hk : k < 16) :
    (rotateLeftOne v).getLsbD ((k + 1) % 16) = v.getLsbD k := by
  rw [rotateLeftOne, BitVec.getLsbD_append, BitVec.getLsbD_extractLsb', BitVec.getLsbD_extractLsb']
  rcases Nat.lt_or_ge k 15 with h | h
  · have hmod : (k + 1) % 16 = k + 1 := by omega
    simp [h, hmod]
  · obtain rfl : k = 15 := by omega
    simp

/-! ### Rotations repeated and undone -/

theorem rotateLeftOne_rotateRightOne (v : Word) : rotateLeftOne (rotateRightOne v) = v := by
  apply BitVec.eq_of_getLsbD_eq
  intro k hk
  have hbelow : (k + 15) % 16 < 16 := Nat.mod_lt _ (by decide)
  have habove : ((k + 15) % 16 + 1) % 16 = k := by omega
  rw [← habove, getLsbD_rotateLeftOne _ hbelow, getLsbD_rotateRightOne v hbelow]

theorem getLsbD_iterate_rotateRightOne (n : Nat) (v : Word) {k : Nat} (hk : k < 16) :
    (rotateRightOne^[n] v).getLsbD k = v.getLsbD ((k + n) % 16) := by
  induction n generalizing v with
  | zero => rw [Nat.add_zero, Nat.mod_eq_of_lt hk, Function.iterate_zero_apply]
  | succ n ih =>
    rw [Function.iterate_succ_apply, ih, getLsbD_rotateRightOne v (Nat.mod_lt _ (by decide)), Nat.mod_add_mod,
      Nat.add_assoc]

/-- Sixteen places round sixteen bits are none. -/
theorem iterate_rotateRightOne_sixteen (v : Word) : rotateRightOne^[16] v = v := by
  apply BitVec.eq_of_getLsbD_eq
  intro k hk
  rw [getLsbD_iterate_rotateRightOne 16 v hk, Nat.add_mod_right, Nat.mod_eq_of_lt hk]

/-- Sixteen ROLs undo sixteen RORs, which do nothing. -/
theorem iterate_rotateLeftOne_sixteen (v : Word) : rotateLeftOne^[16] v = v := by
  have hundo : rotateLeftOne^[16] (rotateRightOne^[16] v) = v :=
    Function.LeftInverse.iterate rotateLeftOne_rotateRightOne 16 v
  rwa [iterate_rotateRightOne_sixteen] at hundo

theorem setReg_reg_self (s : State) (r : Reg) : s.setReg r (s.reg r) = s := by
  simp [State.setReg, State.reg]

/-- An instruction that rewrites one register from itself, repeated, rewrites it by the iterated function. -/
theorem execSeq_replicate {i : Instr} {r : Reg} {f : Word → Word}
    (hi : ∀ s, exec i s = .next (s.setReg r (f (s.reg r)))) (n : Nat) (s : State) :
    execSeq (List.replicate n i) s = .next (s.setReg r (f^[n] (s.reg r))) := by
  induction n generalizing s with
  | zero => exact congrArg _ (setReg_reg_self s r).symm
  | succ n ih =>
    calc execSeq (List.replicate (n + 1) i) s
        = execSeq (List.replicate n i) (s.setReg r (f (s.reg r))) := by simp only [List.replicate_succ, execSeq, hi]
      _ = .next (s.setReg r (f^[n + 1] (s.reg r))) := by
          rw [ih, setReg_reg_same, setReg_setReg, Function.iterate_succ_apply]

theorem execSeq_ror_rol (r : Reg) (s : State) : execSeq [.ror r r, .rol r r] s = .next s := by
  simp only [execSeq, exec_ror, exec_rol, setReg_reg_same, setReg_setReg, rotateLeftOne_rotateRightOne, setReg_reg_self]

/-! ### The eight instructions -/

/-- Settles O36: the operands come from the state before the write, so `rd` may be a source. -/
theorem andOrrXorWorkBitByBit : Obligations.AndOrrXorWorkBitByBit := by
  refine ⟨fun w => ⟨fun hw => ?_, fun hw => ?_, fun hw => ?_⟩, fun rd rn rm s =>
    ⟨⟨_, exec_andR rd rn rm s, fun k _ => ?_, logicFlags_and_frame_writeResult ..⟩,
      ⟨_, exec_orr rd rn rm s, fun k _ => ?_, logicFlags_and_frame_writeResult ..⟩,
      ⟨_, exec_xorR rd rn rm s, fun k _ => ?_, logicFlags_and_frame_writeResult ..⟩⟩⟩
  · exact decodeWord_of_opcode_seven ((and_F000_fields w 7#4).1 hw)
  · exact decodeWord_of_opcode_eight ((and_F000_fields w 8#4).1 hw)
  · exact decodeWord_of_opcode_ten ((and_F000_fields w 10#4).1 hw)
  · rw [writeResult_reg_same, BitVec.getLsbD_and]
  · rw [writeResult_reg_same, BitVec.getLsbD_or]
  · rw [writeResult_reg_same, BitVec.getLsbD_xor]
    exact bne_iff_ne

/-- Settles O37. -/
theorem notComplementsTheSource : Obligations.NotComplementsTheSource := by
  refine ⟨fun w hw => decodeWord_of_opcode_nine ((and_F000_fields w 9#4).1 hw), fun rd rn s =>
    ⟨_, exec_notR rd rn s, ?_, logicFlags_and_frame_writeResult ..⟩⟩
  rw [writeResult_reg_same]
  exact BitVec.toNat_not

/-- Settles O38. -/
theorem shiftsMoveByOnePlace : Obligations.ShiftsMoveByOnePlace := by
  refine ⟨fun w => ⟨fun hw => ?_, fun hw => ?_⟩, fun rd rn s =>
    ⟨⟨_, exec_shr rd rn s, ?_, sf_shiftRightOne _, logicFlags_and_frame_writeResult ..⟩,
      ⟨_, exec_shl rd rn s, ?_, sf_shiftLeftOne _, logicFlags_and_frame_writeResult ..⟩⟩⟩
  · exact decodeWord_of_opcode_eleven ((and_F000_fields w 11#4).1 hw)
  · exact decodeWord_of_opcode_twelve ((and_F000_fields w 12#4).1 hw)
  · rw [writeResult_reg_same, shiftRightOne_toNat]
  · rw [writeResult_reg_same, shiftLeftOne_toNat]

/-- Settles O39: all six share one write-back, so the policy is that write-back's. -/
theorem logicFlagPolicy : Obligations.LogicFlagPolicy := by
  intro rd rn rm s i hi
  obtain ⟨r, hexec⟩ := exec_logic_eq_writeResult s hi
  refine ⟨_, hexec, ?_⟩
  rw [writeResult_reg_same]
  exact ⟨zf_eq_decide_toNat r, sf_eq_getLsbD r, rfl, rfl⟩

/-- Settles O40. -/
theorem rotatesMoveByOnePlaceAndKeepFlags : Obligations.RotatesMoveByOnePlaceAndKeepFlags := by
  refine ⟨fun w => ⟨fun hw => ?_, fun hw => ?_⟩, fun rd rn s =>
    ⟨⟨_, exec_ror rd rn s, fun k hk => ?_, onlyWritesReg_setReg ..⟩,
      ⟨_, exec_rol rd rn s, fun k hk => ?_, onlyWritesReg_setReg ..⟩⟩⟩
  · exact decodeWord_of_opcode_thirteen ((and_F000_fields w 13#4).1 hw)
  · exact decodeWord_of_opcode_fourteen ((and_F000_fields w 14#4).1 hw)
  · rw [setReg_reg_same, getLsbD_rotateRightOne _ hk]
  · rw [setReg_reg_same, getLsbD_rotateLeftOne _ hk]

/-- Settles O41: a repeated rotation iterates the one-place rotation of the register, and sixteen of them are the identity. -/
theorem sixteenRotationsRestoreTheMachine : Obligations.SixteenRotationsRestoreTheMachine := by
  refine fun r s => ⟨?_, ?_, execSeq_ror_rol r s⟩
  · rw [execSeq_replicate (exec_ror r r), iterate_rotateRightOne_sixteen, setReg_reg_self]
  · rw [execSeq_replicate (exec_rol r r), iterate_rotateLeftOne_sixteen, setReg_reg_self]

end Sys2Proof.Machine
end

section
/-! PROOFS, 43_stack.md R100 to R103: which words are PUSH and POP, what one byte and one word leave on the stack, the two
instructions, and last in, first out. -/

namespace Sys2Proof.Machine

/-! ### The words (30_encoding.md R54) -/

/-- Opcode 0000 with `I = 0`: the special group. -/
theorem decodeWord_of_special {w : Word} (hop : opcodeOf w = 0#4) (himm : immModeOf w = 0#1) :
    decodeWord w = decodeSpecial w := by
  simp [decodeWord, hop, himm]

theorem decodeWord_push {w : Word} (h : w &&& 0xF803#16 = 0x0001#16) : decodeWord w = .push (rnOf w) := by
  obtain ⟨hop, himm, hmode⟩ := (and_F803_fields w 0#4 0#1 1#2).1 h
  simp [decodeWord_of_special hop himm, decodeSpecial, hmode]

theorem decodeWord_pop {w : Word} (h : w &&& 0xF803#16 = 0x0002#16) : decodeWord w = .pop (rdOf w) := by
  obtain ⟨hop, himm, hmode⟩ := (and_F803_fields w 0#4 0#1 2#2).1 h
  simp [decodeWord_of_special hop himm, decodeSpecial, hmode]

/-! ### The stack pointer, one byte on -/

namespace StackPointer

theorem down_addr {p : StackPointer} (h : p.depth.val < 16) : p.down.addr = p.addr - 1#16 := by
  have hdown : p.down.addr.toNat = Config.stackBase.toNat - min (p.depth.val + 1) 16 := addr_toNat _
  have hp := p.addr_toNat
  have hbase := stackBase_bounds
  bv_omega

theorem up_addr {p : StackPointer} (h : 0 < p.depth.val) : p.up.addr = p.addr + 1#16 := by
  have hup : p.up.addr.toNat = Config.stackBase.toNat - (p.depth.val - 1) := addr_toNat _
  have hp := p.addr_toNat
  have hbase := stackBase_bounds
  bv_omega

theorem up_down {p : StackPointer} (h : p.depth.val < 16) : p.down.up = p :=
  eq_of_depth (by simp only [up_depth, down_depth]; omega)

theorem down_down_addr {p : StackPointer} (h : p.depth.val ≤ 14) : p.down.down.addr = p.addr - 2#16 := by
  have hdown : p.down.depth.val < 16 := by rw [down_depth]; omega
  rw [down_addr hdown, down_addr (by omega), BitVec.sub_sub]
  rfl

theorem up_up_addr {p : StackPointer} (h : 2 ≤ p.depth.val) : p.up.up.addr = p.addr + 2#16 := by
  have hup : 0 < p.up.depth.val := by rw [up_depth]; omega
  rw [up_addr hup, up_addr (by omega), BitVec.add_assoc]
  rfl

theorem up_up_down_down {p : StackPointer} (h : p.depth.val ≤ 14) : p.down.down.up.up = p := by
  have hdown : p.down.depth.val < 16 := by rw [down_depth]; omega
  rw [up_down hdown, up_down (by omega)]

theorem depth_eq_zero_of_addr {p : StackPointer} (h : p.addr = Config.stackBase) : p.depth.val = 0 := by
  have hp := p.addr_toNat
  have hbase := stackBase_bounds
  rw [h] at hp
  omega

end StackPointer

/-! ### What a pushed byte and a pushed word leave on the stack -/

/-- A pushed byte, read back by stack address: it stands at the new `sp`, every other byte is as before (10_state.md R17). -/
theorem pushByte_stkRead {s : State} (h : s.sp.depth.val < 16) (v : Byte) (a : Word) :
    (s.pushByte v).stkRead a = if a = s.sp.down.addr then some v else s.stkRead a := by
  have hnew : s.sp.down.addr.toNat = Config.stackBase.toNat - min (s.sp.depth.val + 1) 16 := StackPointer.addr_toNat _
  have hindex : s.sp.down.index = 16 - (s.sp.depth.val + 1) := by
    rw [StackPointer.index_eq, StackPointer.down_depth]; omega
  split
  case isTrue ha =>
    rw [stkRead_eq _ a (s.sp.depth.val + 1) (by omega) (by omega) (by rw [ha]; omega), pushByte_stk_read, hindex, if_pos rfl]
  case isFalse ha =>
    unfold State.stkRead
    split
    case isTrue hregion =>
      have hne : a.toNat + Config.stackSize - Config.stackBase.toNat ≠ s.sp.down.index := by
        simp only [inStackRegion, Config.stackSize, Bool.and_eq_true, decide_eq_true_eq] at hregion ⊢
        exact fun he => ha (BitVec.eq_of_toNat_eq (by omega))
      rw [pushByte_stk_read, if_neg hne]
    case isFalse => rfl

/-- The byte at `sp` is the top of the stack. -/
theorem stkRead_sp_addr {s : State} (h : 0 < s.sp.depth.val) : s.stkRead s.sp.addr = some s.topByte :=
  stkRead_eq s _ s.sp.depth.val h (by omega) (StackPointer.addr_toNat _)

/-- The two bytes a POP joins, by stack address: the high byte at `sp`, the low byte at `sp + 1` (43_stack.md R101). -/
theorem stkRead_pop_bytes {s : State} (h : 2 ≤ s.sp.depth.val) :
    s.stkRead s.sp.addr = some s.topByte ∧ s.stkRead (s.sp.addr + 1#16) = some s.dropByte.topByte := by
  have hup : 0 < s.dropByte.sp.depth.val := by rw [State.dropByte_sp, StackPointer.up_depth]; omega
  have hlo := stkRead_sp_addr hup
  rw [State.dropByte_stkRead, State.dropByte_sp, StackPointer.up_addr (by omega)] at hlo
  exact ⟨stkRead_sp_addr (by omega), hlo⟩

namespace Effect

/-- A pushed word, read back: the low byte at `sp - 1`, the high byte at `sp - 2` (43_stack.md R100). -/
theorem push_stkRead {s : State} (h : s.sp.depth.val ≤ 14) (v a : Word) :
    ((push v).apply s).stkRead a = if a = s.sp.addr - 2#16 then some (highByte v)
      else if a = s.sp.addr - 1#16 then some (lowByte v) else s.stkRead a := by
  have hdown : (s.pushByte (lowByte v)).sp.depth.val < 16 := by
    rw [State.pushByte_sp, StackPointer.down_depth]; omega
  rw [← StackPointer.down_down_addr h, ← StackPointer.down_addr (by omega)]
  exact (pushByte_stkRead hdown ..).trans (by rw [pushByte_stkRead (by omega)]; rfl)

/-- The two bytes of a pushed word: the low byte above the high byte. -/
theorem push_bytes {s : State} (h : s.sp.depth.val ≤ 14) (v : Word) :
    ((push v).apply s).stkRead (s.sp.addr - 1#16) = some (lowByte v) ∧
    ((push v).apply s).stkRead (s.sp.addr - 2#16) = some (highByte v) := by
  have hne : s.sp.addr - 1#16 ≠ s.sp.addr - 2#16 := by bv_omega
  rw [push_stkRead h, push_stkRead h, if_neg hne, if_pos rfl, if_pos rfl]
  exact ⟨rfl, rfl⟩

/-- A POP that finds its bytes loads their join (43_stack.md R101). -/
theorem pop_reg (rd : Reg) (s : State) : ((pop rd).apply s).reg rd = joinBytes s.topByte s.dropByte.topByte :=
  setReg_reg_same ..

end Effect

/-! ### The two instructions -/

/-- Settles O42: the pushed bytes join to the register, and a push writes no other byte and no other piece of state. -/
theorem pushStoresLowByteAboveHighByte : Obligations.PushStoresLowByteAboveHighByte := by
  refine ⟨fun w => decodeWord_push, fun rn s hroom => ?_⟩
  have hd : s.sp.depth.val ≤ 14 := by
    have haddr := s.sp.addr_toNat
    have hbase := stackBase_bounds
    omega
  obtain ⟨hlow, hhigh⟩ := Effect.push_bytes hd (s.reg rn)
  refine ⟨(Effect.push (s.reg rn)).apply s, exec_push_ok rn s hd, StackPointer.down_down_addr hd, ⟨_, _, hlow, hhigh, ?_⟩,
    fun a hlo hhi => ?_, fun _ => rfl, rfl, ⟨rfl, rfl⟩, ⟨rfl, rfl⟩, fun _ => rfl, fun _ => rfl⟩
  · rw [← joinBytes_toNat, joinBytes_high_low]
  · rw [Effect.push_stkRead hd, if_neg hhi, if_neg hlo]

/-- Settles O43: the two bytes stand at `sp` and `sp + 1`, and a pop moves `sp` only, so they keep their values. -/
theorem popLoadsHighByteThenLowByte : Obligations.PopLoadsHighByteThenLowByte := by
  refine ⟨fun w => decodeWord_pop, fun rd s hbytes => ?_⟩
  have hd : 2 ≤ s.sp.depth.val := by
    have haddr := s.sp.addr_toNat
    omega
  obtain ⟨hhi, hlo⟩ := stkRead_pop_bytes hd
  refine ⟨(Effect.pop rd).apply s, exec_pop_ok rd s hd, StackPointer.up_up_addr hd, ⟨_, _, hhi, hlo, ?_⟩,
    keepsRegsBut_setReg rd _ s.dropByte.dropByte, rfl, ⟨rfl, rfl⟩, ⟨rfl, rfl⟩, fun _ => rfl, fun _ => rfl, fun _ => rfl⟩
  rw [Effect.pop_reg, joinBytes_toNat]

/-! ### Runs of instructions -/

theorem execSeq_cons {i : Instr} {s t : State} (h : exec i s = .next t) (is : List Instr) :
    execSeq (i :: is) s = execSeq is t := by
  simp only [execSeq, h]

/-- A run of instructions, and then more from where it ends. -/
theorem execSeq_append {is : List Instr} {s t : State} (h : execSeq is s = .next t) (js : List Instr) :
    execSeq (is ++ js) s = execSeq js t := by
  induction is generalizing s with
  | nil => rw [← Host.Outcome.next.inj h]; rfl
  | cons i is ih =>
    rw [execSeq_cons (exec_eq_effect i s)] at h
    rw [List.cons_append, execSeq_cons (exec_eq_effect i s), ih h]

theorem exists_execSeq_eq_next (is : List Instr) (s : State) : ∃ t, execSeq is s = .next t := by
  induction is generalizing s with
  | nil => exact ⟨s, rfl⟩
  | cons i is ih => rw [execSeq_cons (exec_eq_effect i s)]; exact ih _

theorem noStackFault_cons {i : Instr} {s t : State} (h : exec i s = .next t) {is : List Instr} :
    NoStackFault (i :: is) s ↔
      t.run ≠ .halted .stackOverflow ∧ t.run ≠ .halted .stackUnderflow ∧ NoStackFault is t := by
  simp [NoStackFault, h]

theorem noStackFault_append {is : List Instr} {s t : State} (h : execSeq is s = .next t) {js : List Instr} :
    NoStackFault (is ++ js) s ↔ NoStackFault is s ∧ NoStackFault js t := by
  induction is generalizing s with
  | nil => rw [← Host.Outcome.next.inj h]; simp [NoStackFault]
  | cons i is ih =>
    have hi := exec_eq_effect i s
    rw [execSeq_cons hi] at h
    rw [List.cons_append, noStackFault_cons hi, noStackFault_cons hi, ih h, and_assoc, and_assoc]

/-- A PUSH that does not fault has room. -/
theorem depth_le_of_push_noStackFault {rn : Reg} {is : List Instr} {s : State} (h : NoStackFault (.push rn :: is) s) :
    s.sp.depth.val ≤ 14 := by
  by_contra hd
  obtain ⟨hno, -⟩ := (noStackFault_cons (exec_push_fault rn s (Nat.lt_of_not_le hd))).1 h
  exact hno rfl

/-! ### Last in, first out -/

/-- The stack of `s` stands in `t` as it was: `sp` is the same, and so is every byte from `sp` up. Below `sp` bytes may
have come and gone. -/
structure KeepsPushed (s t : State) : Prop where
  sp : t.sp = s.sp
  bytes : ∀ a : Word, s.sp.addr ≤ a → t.stkRead a = s.stkRead a

theorem KeepsPushed.refl (s : State) : KeepsPushed s s := ⟨rfl, fun _ _ => rfl⟩

theorem KeepsPushed.trans {s t u : State} (hst : KeepsPushed s t) (htu : KeepsPushed t u) : KeepsPushed s u where
  sp := htu.sp.trans hst.sp
  bytes a ha := (htu.bytes a (hst.sp ▸ ha)).trans (hst.bytes a ha)

/-- An instruction that is neither PUSH nor POP moves neither `sp` nor a stack byte. -/
theorem keepsPushed_of_leavesStack {i : Instr} (h : i.leavesStack = true) (s : State) :
    KeepsPushed s ((i.effect s).apply s) := by
  have hpush : ∀ v, i.effect s ≠ .push v := effect_ne_push (by rintro rn rfl; cases h) s
  have hpop : ∀ d, i.effect s ≠ .pop d := effect_ne_pop (by rintro rd rfl; cases h) s
  exact ⟨Effect.apply_sp hpush hpop s, fun a _ => stkRead_congr _ _ (fun _ _ => by rw [Effect.apply_stk hpush]) a⟩

/-- A PUSH writes below `sp` only. -/
theorem push_stkRead_of_le {s : State} (h : s.sp.depth.val ≤ 14) (v : Word) {a : Word} (ha : s.sp.addr ≤ a) :
    ((Effect.push v).apply s).stkRead a = s.stkRead a := by
  have haddr := s.sp.addr_toNat
  have hbase := stackBase_bounds
  have hhi : a ≠ s.sp.addr - 2#16 := by bv_omega
  have hlo : a ≠ s.sp.addr - 1#16 := by bv_omega
  rw [Effect.push_stkRead h, if_neg hhi, if_neg hlo]

/-- A POP of a stack that a PUSH left gives the pushed word back and leaves the stack from before that PUSH (43_stack.md
R102): `sp` has returned, and the PUSH wrote below it. -/
theorem pop_of_keepsPushed_push {s t : State} (h : s.sp.depth.val ≤ 14) {v : Word}
    (hkeep : KeepsPushed ((Effect.push v).apply s) t) (rd : Reg) :
    ∃ u, exec (.pop rd) t = .next u ∧ u.reg rd = v ∧ KeepsPushed s u := by
  obtain ⟨hsp, hbytes⟩ := hkeep
  replace hsp : t.sp = s.sp.down.down := hsp
  have hd : 2 ≤ t.sp.depth.val := by simp only [hsp, StackPointer.down_depth]; omega
  have hkept : ∀ a, s.sp.addr - 2#16 ≤ a → t.stkRead a = ((Effect.push v).apply s).stkRead a := by
    rw [← StackPointer.down_down_addr h]; exact hbytes
  have haddr := s.sp.addr_toNat
  have hbase := stackBase_bounds
  have hnext : s.sp.addr - 2#16 + 1#16 = s.sp.addr - 1#16 := by bv_omega
  obtain ⟨hlow, hhigh⟩ := Effect.push_bytes h v
  obtain ⟨hhi, hlo⟩ := stkRead_pop_bytes hd
  rw [hsp, StackPointer.down_down_addr h, hkept _ (by bv_omega), hhigh] at hhi
  rw [hsp, StackPointer.down_down_addr h, hnext, hkept _ (by bv_omega), hlow] at hlo
  refine ⟨(Effect.pop rd).apply t, exec_pop_ok rd t hd, ?_, ?_, fun a ha => ?_⟩
  · rw [Effect.pop_reg, ← Option.some.inj hhi, ← Option.some.inj hlo, joinBytes_high_low]
  · exact (congrArg (·.up.up) hsp).trans (StackPointer.up_up_down_down h)
  · exact (hkept a (by bv_omega)).trans (push_stkRead_of_le h v ha)

/-- Balanced instructions that do not fault leave the stack they find, by induction on the pairs. -/
theorem balanced_keepsPushed {is : List Instr} (h : Balanced is) {s t : State} (hno : NoStackFault is s)
    (hrun : execSeq is s = .next t) : KeepsPushed s t := by
  induction h generalizing s t with
  | nil => exact Host.Outcome.next.inj hrun ▸ .refl s
  | other i is hi _ ih =>
    have hexec := exec_eq_effect i s
    obtain ⟨-, -, hno⟩ := (noStackFault_cons hexec).1 hno
    rw [execSeq_cons hexec] at hrun
    exact (keepsPushed_of_leavesStack hi s).trans (ih hno hrun)
  | pair rn rd inner rest _ _ ihinner ihrest =>
    rw [List.cons_append] at hno hrun
    have hd := depth_le_of_push_noStackFault hno
    have hpush := exec_push_ok rn s hd
    obtain ⟨-, -, hno⟩ := (noStackFault_cons hpush).1 hno
    obtain ⟨u, hinner⟩ := exists_execSeq_eq_next inner ((Effect.push (s.reg rn)).apply s)
    obtain ⟨hnoinner, hnorest⟩ := (noStackFault_append hinner).1 hno
    obtain ⟨u', hpop, -, hpair⟩ := pop_of_keepsPushed_push hd (ihinner hnoinner hinner) rd
    obtain ⟨-, -, hnorest⟩ := (noStackFault_cons hpop).1 hnorest
    have hrest : execSeq rest u' = .next t := by
      rw [← execSeq_cons hpop, ← execSeq_append hinner]
      exact (execSeq_cons hpush _).symm.trans hrun
    exact hpair.trans (ihrest hnorest hrest)

/-- Settles O45: the instructions between leave the stack that the PUSH left, and a POP of that stack undoes the PUSH. -/
theorem popRestoresWhatPushPushed : Obligations.PopRestoresWhatPushPushed := by
  intro rn rd inner s s1 s2 hd hbalanced hpush hno hrun
  obtain rfl := Host.Outcome.next.inj ((exec_push_ok rn s hd).symm.trans hpush)
  obtain ⟨t, hpop, hreg, hkeep⟩ := pop_of_keepsPushed_push hd (balanced_keepsPushed hbalanced hno hrun) rd
  exact ⟨t, hpop, hreg, hkeep.sp⟩

/-! ### Capacity -/

/-- Pushes that fit go two bytes down each and do not halt the machine. -/
theorem execSeq_pushes (rs : List Reg) {s : State} (h : s.sp.depth.val + 2 * rs.length ≤ 16) :
    ∃ t, execSeq (rs.map .push) s = .next t ∧ t.run = s.run ∧ t.sp.depth.val = s.sp.depth.val + 2 * rs.length := by
  induction rs generalizing s with
  | nil => exact ⟨s, rfl, rfl, rfl⟩
  | cons r rs ih =>
    rw [List.length_cons] at h ⊢
    have hd : ((Effect.push (s.reg r)).apply s).sp.depth.val = s.sp.depth.val + 2 := by
      simp only [Effect.apply, State.pushByte_sp, StackPointer.down_depth]; omega
    obtain ⟨t, hseq, hrun, hdepth⟩ := ih (s := (Effect.push (s.reg r)).apply s) (by omega)
    exact ⟨t, (execSeq_cons (exec_push_ok r s (by omega)) _).trans hseq, hrun, by omega⟩

/-- Settles O46: eight words are the 16 bytes of the region. -/
theorem stackHoldsEightValues : Obligations.StackHoldsEightValues := by
  intro s hr haddr
  have hempty := StackPointer.depth_eq_zero_of_addr haddr
  refine ⟨fun rs hlen => ?_, fun rs r hlen => ?_, fun r => ⟨_, exec_pop_fault r s (by omega), rfl⟩⟩
  · obtain ⟨t, hseq, hrun, hdepth⟩ := execSeq_pushes rs (s := s) (by omega)
    exact ⟨t, hseq, hrun.trans hr, by rw [StackPointer.addr_toNat, hdepth, hempty, Nat.zero_add]⟩
  · obtain ⟨t, hseq, -, hdepth⟩ := execSeq_pushes rs (s := s) (by omega)
    have hfull : t.sp.depth.val = 16 := by omega
    have hninth := exec_push_fault r t (by omega)
    refine ⟨_, (execSeq_append hseq _).trans (execSeq_cons hninth []), rfl, ?_⟩
    rw [State.haltWith_sp, StackPointer.addr_toNat, hfull]

end Sys2Proof.Machine
end

section
/-! PROOFS, 44_compare_branch.md R110 to R115: which words are CMP and the branches, what a branch leaves and when it moves `pc`,
the five instructions, and the branches after a CMP. -/

namespace Sys2Proof.Machine

/-! ### The words (30_encoding.md R52, R54) -/

section
variable {w : Word}

/-- Mode bits 11 leave `rm` the choice of R3 and R7, by `w[2]` (30_encoding.md R52). -/
theorem rmOf_of_mode_three (hmode : modeOf w = 3#2) : rmOf w = if w.getLsbD 2 then 7#3 else 3#3 := by
  have hbit : (rmOf w).extractLsb' 2 1 = BitVec.ofBool (w.getLsbD 2) := by
    ext j hj
    obtain rfl : j = 0 := Nat.lt_one_iff.1 hj
    simp [rmOf]
  rw [← rmOf_eq_append_modeOf, hmode, hbit]
  cases w.getLsbD 2 <;> rfl

theorem decodeWord_cmp (h : w &&& 0xF803#16 = 0x0003#16) : decodeWord w = .cmp (rnOf w) (rmOf w) := by
  obtain ⟨hop, himm, hmode⟩ := (and_F803_fields w 0#4 0#1 3#2).1 h
  simp [decodeWord_of_special hop himm, decodeSpecial, hmode]

/-- Opcode 0000 with `I = 1`: the branch family. -/
theorem decodeWord_of_branch (hop : opcodeOf w = 0#4) (himm : immModeOf w = 1#1) : decodeWord w = decodeBranch w := by
  simp [decodeWord, hop, himm]

theorem decodeWord_jmp (h : w &&& 0xF803#16 = 0x0800#16) : decodeWord w = .jmp (imm8Of w) := by
  obtain ⟨hop, himm, hmode⟩ := (and_F803_fields w 0#4 1#1 0#2).1 h
  simp [decodeWord_of_branch hop himm, decodeBranch, hmode]

theorem decodeWord_jeq (h : w &&& 0xF803#16 = 0x0801#16) : decodeWord w = .jeq (imm8Of w) := by
  obtain ⟨hop, himm, hmode⟩ := (and_F803_fields w 0#4 1#1 1#2).1 h
  simp [decodeWord_of_branch hop himm, decodeBranch, hmode]

theorem decodeWord_jlt (h : w &&& 0xF803#16 = 0x0802#16) : decodeWord w = .jlt (imm8Of w) := by
  obtain ⟨hop, himm, hmode⟩ := (and_F803_fields w 0#4 1#1 2#2).1 h
  simp [decodeWord_of_branch hop himm, decodeBranch, hmode]

theorem decodeWord_jgt (h : w &&& 0xF803#16 = 0x0803#16) : decodeWord w = .jgt (imm8Of w) := by
  obtain ⟨hop, himm, hmode⟩ := (and_F803_fields w 0#4 1#1 3#2).1 h
  simp [decodeWord_of_branch hop himm, decodeBranch, hmode]

end

/-! ### What a branch leaves, and when it moves `pc` -/

theorem keepsAllButPc_refl (s : State) : KeepsAllButPc s s :=
  ⟨fun _ => rfl, rfl, rfl, rfl, ⟨rfl, rfl⟩, ⟨fun _ => rfl, fun _ => rfl, fun _ => rfl⟩⟩

theorem keepsAllButPc_branchBy (s : State) (d : Word) : KeepsAllButPc s (s.branchBy d) :=
  ⟨fun _ => rfl, rfl, rfl, rfl, ⟨rfl, rfl⟩, ⟨fun _ => rfl, fun _ => rfl, fun _ => rfl⟩⟩

theorem keepsAllButPc_branchBy_if (c : Bool) (d : Word) (s : State) :
    KeepsAllButPc s (if c then s.branchBy d else s) := by
  cases c
  · exact keepsAllButPc_refl s
  · exact keepsAllButPc_branchBy s d

/-- A taken branch adds its displacement to `pc`, modulo 2^16 (44_compare_branch.md R111). -/
theorem branchBy_pc_toNat (s : State) (imm8 : BitVec 8) :
    (s.branchBy (zext16 imm8)).pc.toNat = (s.pc.toNat + imm8.toNat) % 65536 := by
  rw [State.branchBy_pc, BitVec.toNat_add, zext16_toNat]

/-- A branch that is taken when `P` holds moves `pc` when `P` holds. -/
theorem branchBy_if_pc_toNat {c : Bool} {P : Prop} [Decidable P] (h : c = true ↔ P) (imm8 : BitVec 8) (s : State) :
    (if c then s.branchBy (zext16 imm8) else s).pc.toNat =
      (s.pc.toNat + if P then imm8.toNat else 0) % 65536 := by
  by_cases hP : P
  · rw [if_pos (h.2 hP), if_pos hP, branchBy_pc_toNat]
  · rw [if_neg (mt h.1 hP), if_neg hP, Nat.add_zero, Nat.mod_eq_of_lt s.pc.isLt]

/-- A displacement that carries the condition of JEQ, JLT or JGT is not 0 (30_encoding.md R52), so the branch moves `pc`. -/
theorem branchBy_pc_ne {imm8 : BitVec 8} {c : BitVec 2} (h : (conditionBits imm8 == c) = true) (hc : c ≠ 0#2) (s : State) :
    (s.branchBy (zext16 imm8)).pc ≠ s.pc := by
  intro hpc
  have hd : zext16 imm8 = zext16 0#8 := add_eq_left.1 hpc
  have himm : imm8 = 0#8 := BitVec.eq_of_toNat_eq (by rw [← zext16_toNat, hd, zext16_toNat])
  subst himm
  exact hc (beq_iff_eq.1 h).symm

/-! ### CMP -/

/-- Settles O47: CMP and SUB compute their flags by one function of the same two registers, and CMP only sets them. -/
theorem cmpSetsTheFlagsOfSubAndNothingElse : Obligations.CmpSetsTheFlagsOfSubAndNothingElse := by
  refine ⟨fun w hw => ?_, fun rn rm d s => ⟨_, _, exec_cmp rn rm s, exec_sub d rn rm s, rfl, zf_sub_iff .., subC_iff ..,
    fun _ => rfl, rfl, ⟨rfl, rfl⟩, ⟨rfl, rfl⟩, fun _ => rfl, fun _ => rfl, fun _ => rfl⟩⟩
  obtain ⟨-, -, hmode⟩ := (and_F803_fields w 0#4 0#1 3#2).1 hw
  rw [decodeWord_cmp hw, rmOf_of_mode_three hmode, rnOf]

/-! ### The branches -/

/-- Settles O48. -/
theorem jmpAddsTheDisplacement : Obligations.JmpAddsTheDisplacement :=
  ⟨fun _ => decodeWord_jmp, fun imm8 s =>
    ⟨_, exec_jmp imm8 s, branchBy_pc_toNat s imm8, keepsAllButPc_branchBy s _⟩⟩

theorem condLess_iff (f : Flags) : (f.s && !f.z) = true ↔ f.s = true ∧ f.z = false := by simp

theorem condGreater_iff (f : Flags) : (!f.z && !f.s) = true ↔ f.z = false ∧ f.s = false := by simp

/-- Settles O49. -/
theorem conditionalBranchesTestZAndS : Obligations.ConditionalBranchesTestZAndS :=
  ⟨fun _ => ⟨decodeWord_jeq, decodeWord_jlt, decodeWord_jgt⟩, fun imm8 s =>
    ⟨⟨_, exec_jeq imm8 s, keepsAllButPc_branchBy_if .., branchBy_if_pc_toNat Iff.rfl ..⟩,
      ⟨_, exec_jlt imm8 s, keepsAllButPc_branchBy_if .., branchBy_if_pc_toNat (condLess_iff _) ..⟩,
      ⟨_, exec_jgt imm8 s, keepsAllButPc_branchBy_if .., branchBy_if_pc_toNat (condGreater_iff _) ..⟩⟩⟩

/-- Settles O50: `Z` is JEQ's case, `S` without `Z` JLT's, neither JGT's, and a branch that is taken moves `pc`. -/
theorem exactlyOneConditionalBranchIsTaken : Obligations.ExactlyOneConditionalBranchIsTaken := by
  intro e l g s he hl hg hflags
  refine ⟨_, _, _, exec_jeq e s, exec_jlt l s, exec_jgt g s, ?_⟩
  cases hz : s.flags.z with
  | true =>
    have hs : s.flags.s = false := by simpa [hz] using hflags
    rw [hs]
    exact .inl ⟨branchBy_pc_ne he (by decide) s, rfl, rfl⟩
  | false =>
    cases hs : s.flags.s with
    | true => exact .inr (.inl ⟨rfl, branchBy_pc_ne hl (by decide) s, rfl⟩)
    | false => exact .inr (.inr ⟨rfl, rfl, branchBy_pc_ne hg (by decide) s⟩)

/-! ### A branch directly after a CMP -/

/-- After a comparison JLT's condition is the sign of the difference: a difference with bit 15 set is not zero (R114). -/
theorem condLess_flagsOfSub_iff (a b : Word) :
    ((flagsOfSub a b).s && !(flagsOfSub a b).z) = true ↔ (a - b).getLsbD 15 = true := by
  rw [condLess_iff, ← sf_eq_getLsbD]
  refine ⟨And.left, fun hs => ⟨hs, ?_⟩⟩
  have hboth := zf_and_sf (a - b)
  rwa [hs, Bool.and_true] at hboth

/-- After a comparison JGT's condition is that the operands differ and the difference has no sign (R115). -/
theorem condGreater_flagsOfSub_iff (a b : Word) :
    (!(flagsOfSub a b).z && !(flagsOfSub a b).s) = true ↔ a ≠ b ∧ (a - b).getLsbD 15 = false := by
  have hz : zf (a - b) = false ↔ a ≠ b := by rw [← Bool.not_eq_true, zf_sub_iff]
  rw [condGreater_iff, ← sf_eq_getLsbD, ← hz, flagsOfSub]

/-- The instruction after a CMP starts from the state with the comparison's flags. -/
theorem execSeq_cmp_pair {i : Instr} {rn rm : Reg} {s t : State}
    (h : exec i (s.setFlags (flagsOfSub (s.reg rn) (s.reg rm))) = .next t) : execSeq [.cmp rn rm, i] s = .next t :=
  (execSeq_cons (exec_cmp rn rm s) [i]).trans (execSeq_cons h [])

/-- Settles O51. -/
theorem branchesAfterCompare : Obligations.BranchesAfterCompare := fun _ _ imm8 _ =>
  ⟨⟨_, execSeq_cmp_pair (exec_jeq imm8 _), branchBy_if_pc_toNat (zf_sub_iff ..) imm8 _⟩,
    ⟨_, execSeq_cmp_pair (exec_jlt imm8 _), branchBy_if_pc_toNat (condLess_flagsOfSub_iff ..) imm8 _⟩,
    ⟨_, execSeq_cmp_pair (exec_jgt imm8 _), branchBy_if_pc_toNat (condGreater_flagsOfSub_iff ..) imm8 _⟩⟩

end Sys2Proof.Machine
end

section
/-! PROOFS, 45_system.md R120 to R122: which words are NOP, HALT and unrecognised, what a dump, a halt and a fetch leave, and the
three kinds of word. -/

namespace Sys2Proof.Machine

/-! ### The words (30_encoding.md R54, R58) -/

section
variable {w : Word}

theorem decodeWord_nop (h : w &&& 0xF803#16 = 0x0000#16) : decodeWord w = .nop := by
  obtain ⟨hop, himm, hmode⟩ := (and_F803_fields w 0#4 0#1 0#2).1 h
  simp [decodeWord_of_special hop himm, decodeSpecial, hmode]

/-- Opcode 1111: HALT and the unrecognised classes. -/
theorem decodeWord_of_opcode_fifteen (hop : opcodeOf w = 15#4) : decodeWord w = decodeHalt w := by
  simp [decodeWord, hop]

theorem decodeWord_halt (h : w &&& 0xF803#16 = 0xF803#16) : decodeWord w = .halt := by
  obtain ⟨hop, himm, hmode⟩ := (and_F803_fields w 15#4 1#1 3#2).1 h
  simp [decodeWord_of_opcode_fifteen hop, decodeHalt, himm, hmode]

/-- Opcode 1111 without HALT's other bits: one of the four unrecognised classes. -/
theorem decodeWord_unrecognised (hop : w &&& 0xF000#16 = 0xF000#16) (hne : w &&& 0xF803#16 ≠ 0xF803#16) :
    decodeWord w ∈ [Instr.undImm0, .undMode0, .undMode1, .undMode2] := by
  have hop : opcodeOf w = 15#4 := (and_F000_fields w 15#4).1 hop
  rw [decodeWord_of_opcode_fifteen hop, decodeHalt]
  by_cases himm : immModeOf w = 0#1
  · simp [himm]
  · obtain hmode | hmode | hmode | hmode := modeOf_cases w
    case inr.inr.inr => exact absurd ((and_F803_fields w 15#4 1#1 3#2).2 ⟨hop, immModeOf_eq_one himm, hmode⟩) hne
    all_goals simp [himm, hmode]

end

/-! ### What a dump, a halt and a fetch leave -/

theorem keepsAllButRun_emitDump (s : State) : KeepsAllButRun s s.emitDump :=
  ⟨fun _ => rfl, rfl, rfl, ⟨rfl, rfl⟩, fun _ => rfl, fun _ => rfl, fun _ => rfl⟩

theorem keepsAllButRun_haltWith (s : State) (c : HaltCause) : KeepsAllButRun s (s.haltWith c) :=
  ⟨fun _ => rfl, rfl, rfl, ⟨rfl, rfl⟩, fun _ => rfl, fun _ => rfl, fun _ => rfl⟩

/-- The fetch moves `pc` and loads `ir`, and touches nothing else (10_state.md R27). -/
theorem afterFetch_frame (s : State) : KeepsRun s s.afterFetch ∧ KeepsRegs s s.afterFetch ∧ s.afterFetch.flags = s.flags ∧
    s.afterFetch.sp = s.sp ∧ KeepsMemories s s.afterFetch :=
  ⟨⟨rfl, rfl⟩, fun _ => rfl, rfl, rfl, fun _ => rfl, fun _ => rfl, fun _ => rfl⟩

/-- The effects of the fetch are still there after an instruction that changes the run state and the dump count only. -/
theorem fetch_effects_of_keepsAllButRun {s t : State} (h : KeepsAllButRun s.afterFetch t) :
    t.pc = s.pc + 2#16 ∧ t.ir = s.fetchWord ∧ KeepsRegs s t ∧ t.flags = s.flags ∧ t.sp = s.sp ∧ KeepsMemories s t := by
  obtain ⟨hregs, hflags, hsp, ⟨hpc, hir⟩, hmemories⟩ := h
  exact ⟨hpc, hir, hregs, hflags, hsp, hmemories⟩

theorem exec_unrecognised {i : Instr} (h : i ∈ [Instr.undImm0, .undMode0, .undMode1, .undMode2]) (s : State) :
    exec i s = .next s := by
  simp only [List.mem_cons, List.not_mem_nil, or_false] at h
  obtain rfl | rfl | rfl | rfl := h
  · exact exec_undImm0 s
  · exact exec_undMode0 s
  · exact exec_undMode1 s
  · exact exec_undMode2 s

/-! ### The three kinds of word -/

/-- Settles O52: NOP is the dump alone, and its step the dump of the state the fetch left. -/
theorem nopEmitsADumpAndNothingElse : Obligations.NopEmitsADumpAndNothingElse := by
  refine ⟨fun w => decodeWord_nop, fun s => ⟨_, exec_nop s, rfl, rfl, keepsAllButRun_emitDump s⟩, fun s hr hw => ?_⟩
  have hstep : step s = .next s.afterFetch.emitDump := by rw [step_running hr, decodeWord_nop hw, exec_nop]
  obtain ⟨hpc, hir, hframe⟩ := fetch_effects_of_keepsAllButRun (keepsAllButRun_emitDump s.afterFetch)
  exact ⟨_, hstep, hpc, hir, rfl, hr, hframe⟩

/-- Settles O53: HALT is the clean halt alone; its step halts the state the fetch left, and a halted machine stays as it is. -/
theorem haltStopsTheMachineCleanly : Obligations.HaltStopsTheMachineCleanly := by
  refine ⟨fun w => decodeWord_halt, fun s => ⟨_, exec_halt s, rfl, rfl, keepsAllButRun_haltWith s _⟩, fun s hr hw => ?_⟩
  have hstep : step s = .next (s.afterFetch.haltWith .clean) := by rw [step_running hr, decodeWord_halt hw, exec_halt]
  have hrun : (s.afterFetch.haltWith .clean).run = .halted .clean := State.haltWith_run _ _
  obtain ⟨hpc, hir, hregs, hflags, hsp, hmemories⟩ :=
    fetch_effects_of_keepsAllButRun (keepsAllButRun_haltWith s.afterFetch .clean)
  exact ⟨_, hstep, hrun, by rw [State.exitStatus, hrun], hpc, hir, rfl, hregs, hflags, hsp, hmemories, step_halted hrun⟩

/-- Settles O54: the four classes do nothing, so such a step is the fetch. -/
theorem unrecognisedWordsAreSilentNoOps : Obligations.UnrecognisedWordsAreSilentNoOps := by
  refine ⟨fun i hi s => ⟨s, exec_unrecognised hi s, rfl⟩, fun s hr hop hne => ?_⟩
  have hstep : step s = .next s.afterFetch := by
    rw [step_running hr, exec_unrecognised (decodeWord_unrecognised hop hne)]
  exact ⟨_, hstep, rfl, rfl, afterFetch_frame s⟩

end Sys2Proof.Machine
end

section
/-! PROOFS, 60_exceptions.md R131 to R134, R143, R145: which effects emit a dump, what a step that halts leaves, what the exit
status says of the run state, and the four statements. -/

namespace Sys2Proof.Machine

/-! ### Dumps and halts, by effect -/

namespace Effect

/-- Whether the operation emits a Dump (60_exceptions.md R143). -/
def emitsDump : Effect → Bool
  | dump | halt _ => true
  | nothing | writeReg _ _ | writeResult _ _ _ | writeFlags _ | store _ _ | branch _ | push _ | pop _ => false

@[simp] theorem apply_dumps (e : Effect) (s : State) :
    (e.apply s).dumps = s.dumps + if e.emitsDump then 1 else 0 := by
  cases e <;> rfl

theorem eq_halt_of_haltCause {e : Effect} {c : HaltCause} (h : e.haltCause = some c) : e = .halt c := by
  cases e with
  | halt c' => exact congrArg Effect.halt (Option.some.inj h)
  | _ => cases h

end Effect

/-- The instructions that emit a Dump are those whose effect does; PUSH and POP have such an effect where they do not fit. -/
theorem effect_emitsDump (i : Instr) (s : State) : (i.effect s).emitsDump = i.emitsDump s.sp.depth.val := by
  cases i with
  | push rn =>
    rcases Nat.lt_or_ge 14 s.sp.depth.val with h | h
    · rw [effect_push_overflows rn h]; exact (decide_eq_true h).symm
    · rw [effect_push_fits rn h]; exact (decide_eq_false (Nat.not_lt.2 h)).symm
  | pop rd =>
    rcases Nat.lt_or_ge s.sp.depth.val 2 with h | h
    · rw [effect_pop_underflows rd h]; exact (decide_eq_true h).symm
    · rw [effect_pop_fits rd h]; exact (decide_eq_false (Nat.not_lt.2 h)).symm
  | jmp imm8 | jeq imm8 | jlt imm8 | jgt imm8 =>
    simp only [Instr.effect]; split <;> rfl
  | _ => rfl

/-- A running machine's step that halts it leaves the state of the fetch, halted. -/
theorem step_eq_haltWith {s t : State} {c : HaltCause} (hr : s.run = .running) (h : step s = .next t)
    (ht : t.run = .halted c) : t = s.afterFetch.haltWith c := by
  rw [step_eq_effect hr] at h
  obtain rfl := Host.Outcome.next.inj h
  have hcause : ((decodeWord s.fetchWord).effect s.afterFetch).haltCause = some c := by
    rw [effect_haltCause_iff, State.afterFetch_sp, ← step_halts_iff hr (step_eq_effect hr)]
    exact ht
  rw [Effect.eq_halt_of_haltCause hcause, Effect.apply]

/-! ### The exit status (60_exceptions.md R145) -/

theorem exitStatus_eq_zero_iff (s : State) : s.exitStatus = some 0 ↔ s.run = .halted .clean := by
  rcases hr : s.run with _ | (_ | _ | _) <;> simp [State.exitStatus, hr]

theorem exitStatus_eq_one_iff (s : State) :
    s.exitStatus = some 1 ↔ s.run = .halted .stackOverflow ∨ s.run = .halted .stackUnderflow := by
  rcases hr : s.run with _ | (_ | _ | _) <;> simp [State.exitStatus, hr]

/-- There is an exit status exactly when the `halted` output is set. -/
theorem exitStatus_isSome (s : State) : s.exitStatus.isSome = s.haltedOutput := by
  rcases hr : s.run with _ | (_ | _ | _) <;> simp [State.exitStatus, State.haltedOutput, hr]

/-! ### The four statements -/

/-- Settles O16: the state is the fetch's, halted, and a halt keeps all but the run state and the dump count. -/
theorem faultsArePrecise : Obligations.FaultsArePrecise := by
  intro s t hr h ht
  obtain ⟨c, hc⟩ : ∃ c, t.run = .halted c := ht.elim (⟨_, ·⟩) (⟨_, ·⟩)
  obtain rfl := step_eq_haltWith hr h hc
  obtain ⟨hpc, hir, hregs, hflags, hsp, hmemories⟩ :=
    fetch_effects_of_keepsAllButRun (keepsAllButRun_haltWith s.afterFetch c)
  exact ⟨hpc, hir, hregs, hflags, hsp, hmemories, State.haltWith_dumps _ _⟩

/-- Settles O17: the step's effect emits a dump exactly when the instruction does at the depth the step starts from. -/
theorem dumpsAreEmittedByNopHaltAndFaultsOnly : Obligations.DumpsAreEmittedByNopHaltAndFaultsOnly := by
  intro s t hr h
  rw [step_eq_effect hr] at h
  obtain rfl := Host.Outcome.next.inj h
  rw [Effect.apply_dumps, effect_emitsDump, State.afterFetch_sp, State.afterFetch_dumps]

/-- Settles O18: the exit status tells the halt causes apart, and each cause has its words. -/
theorem exitStatusTellsCleanHaltFromFault : Obligations.ExitStatusTellsCleanHaltFromFault := by
  intro s t hr h
  refine ⟨?_, ?_, ?_⟩
  · rw [exitStatus_eq_zero_iff]
    simp [step_halts_iff hr h]
  · rw [exitStatus_eq_one_iff]
    simp [step_halts_iff hr h]
  · rw [← exitStatus_isSome, Option.isSome_eq_false_iff, Option.isNone_iff_eq_none]

/-- Settles O44: the bounds on `sp` are bounds on the depth, and there the instruction is a halt alone. -/
theorem stackFaultsHaltAndChangeNothingElse : Obligations.StackFaultsHaltAndChangeNothingElse := by
  refine ⟨fun rn s hfull => ?_, fun rd s hempty => ?_⟩
  · have hd : 14 < s.sp.depth.val := by
      have haddr := s.sp.addr_toNat
      have hbase := stackBase_bounds
      omega
    exact ⟨_, exec_push_fault rn s hd, rfl, rfl, keepsAllButRun_haltWith s _⟩
  · have hd : s.sp.depth.val < 2 := by
      have haddr := s.sp.addr_toNat
      have hbase := stackBase_bounds
      omega
    exact ⟨_, exec_pop_fault rd s hd, rfl, rfl, keepsAllButRun_haltWith s _⟩

end Sys2Proof.Machine
end
